-- ==== Sys2Proof/Word.lean ====
section
/-! DEFINITION. The value types of the Machine (spec/00_scope.md R9): unsigned integers of a fixed width,
and the indexes that name one of sixteen registers, keys or stack slots. -/

namespace Sys2Proof

/-- `u8`: a V register, a timer, a byte of memory, an NN immediate. -/
abbrev Byte := BitVec 8

/-- `u16`: an opcode word, I, pc, a stack entry. -/
abbrev Word := BitVec 16

/-- `u4`: one nibble of an opcode word (R45). -/
abbrev Nibble := BitVec 4

/-- `u12`: an NNN address immediate (R45). -/
abbrev Addr12 := BitVec 12

/-- The name of one of V0..VF (R14): the index itself, 0..15. -/
abbrev RegIdx := Fin 16

/-- VF, the flag register (R15). -/
abbrev flagReg : RegIdx := 15

end Sys2Proof
end

