-- ==== Sys2Proof/Syntax.lean ====
section
/-! DEFINITION. The 34 instructions of the opcode map (spec/30_encoding.md R51; spec/opcode_table.json), one
constructor a row, in the table's order. Operand types carry the widths of R45, so that every term is an
encodable instruction (R47, R48: no value of a field is reserved). `Y` of SHR and SHL is kept, although the
semantics does not use it (R48), so that an encoding loses no bit. -/

namespace Sys2Proof

/-- The instruction set. `x`, `y`: registers VX, VY; `nn`: byte immediate; `nnn`: 12-bit address; `n`: sprite
height in rows. -/
inductive Instr where
  /-- 00E0 CLS -/
  | cls
  /-- 00EE RET -/
  | ret
  /-- 1NNN JP addr -/
  | jp (nnn : Addr12)
  /-- 2NNN CALL addr -/
  | call (nnn : Addr12)
  /-- 3XNN SE Vx, byte -/
  | seImm (x : RegIdx) (nn : Byte)
  /-- 4XNN SNE Vx, byte -/
  | sneImm (x : RegIdx) (nn : Byte)
  /-- 5XY0 SE Vx, Vy -/
  | seReg (x y : RegIdx)
  /-- 6XNN LD Vx, byte -/
  | ldImm (x : RegIdx) (nn : Byte)
  /-- 7XNN ADD Vx, byte -/
  | addImm (x : RegIdx) (nn : Byte)
  /-- 8XY0 LD Vx, Vy -/
  | ldReg (x y : RegIdx)
  /-- 8XY1 OR Vx, Vy -/
  | orReg (x y : RegIdx)
  /-- 8XY2 AND Vx, Vy -/
  | andReg (x y : RegIdx)
  /-- 8XY3 XOR Vx, Vy -/
  | xorReg (x y : RegIdx)
  /-- 8XY4 ADD Vx, Vy -/
  | addReg (x y : RegIdx)
  /-- 8XY5 SUB Vx, Vy -/
  | subReg (x y : RegIdx)
  /-- 8XY6 SHR Vx (Vy unused) -/
  | shr (x y : RegIdx)
  /-- 8XY7 SUBN Vx, Vy -/
  | subn (x y : RegIdx)
  /-- 8XYE SHL Vx (Vy unused) -/
  | shl (x y : RegIdx)
  /-- 9XY0 SNE Vx, Vy -/
  | sneReg (x y : RegIdx)
  /-- ANNN LD I, addr -/
  | ldI (nnn : Addr12)
  /-- BNNN JP V0, addr -/
  | jpV0 (nnn : Addr12)
  /-- CXNN RND Vx, byte -/
  | rnd (x : RegIdx) (nn : Byte)
  /-- DXYN DRW Vx, Vy, nibble -/
  | drw (x y : RegIdx) (n : Nibble)
  /-- EX9E SKP Vx -/
  | skp (x : RegIdx)
  /-- EXA1 SKNP Vx -/
  | sknp (x : RegIdx)
  /-- FX07 LD Vx, DT -/
  | ldVxDt (x : RegIdx)
  /-- FX0A LD Vx, K -/
  | ldVxKey (x : RegIdx)
  /-- FX15 LD DT, Vx -/
  | ldDtVx (x : RegIdx)
  /-- FX18 LD ST, Vx -/
  | ldStVx (x : RegIdx)
  /-- FX1E ADD I, Vx -/
  | addI (x : RegIdx)
  /-- FX29 LD F, Vx -/
  | ldFont (x : RegIdx)
  /-- FX33 LD B, Vx -/
  | ldBcd (x : RegIdx)
  /-- FX55 LD [I], Vx -/
  | storeRegs (x : RegIdx)
  /-- FX65 LD Vx, [I] -/
  | loadRegs (x : RegIdx)
  deriving DecidableEq, Repr

end Sys2Proof
end

