-- ==== Sys2Proof/WellFormed.lean ====
section
/-! DEFINITION. Which words are instructions: the opcode map as data (spec/30_encoding.md R51), one row an
instruction with its match and mask, and the formal rule of R50, `(w & mask) == match`. Terms of `Instr` need no
check of their own: their types hold exactly the operand values R47 and R48 allow. The check that can fail is on
WORDS, and `decode` (Decode.lean), which follows the two-stage procedure of R49, is a second design of the
same set. -/

namespace Sys2Proof

/-- One row of the opcode map: the pattern's name, and its fixed bits (R51). -/
structure Row where
  pattern : String
  mnemonic : String
  bits : Word
  mask : Word
  deriving DecidableEq, Repr

/-- A word matches a row exactly when it equals the pattern in every fixed nibble (R50). -/
def Row.covers (r : Row) (w : Word) : Bool := w &&& r.mask == r.bits

/-- Rows 1 to 9 of R51. -/
def opcodeRowsA : List Row :=
  [⟨"00E0", "CLS", 0x00E0, 0xFFFF⟩, ⟨"00EE", "RET", 0x00EE, 0xFFFF⟩, ⟨"1NNN", "JP", 0x1000, 0xF000⟩,
   ⟨"2NNN", "CALL", 0x2000, 0xF000⟩, ⟨"3XNN", "SE", 0x3000, 0xF000⟩, ⟨"4XNN", "SNE", 0x4000, 0xF000⟩,
   ⟨"5XY0", "SE", 0x5000, 0xF00F⟩, ⟨"6XNN", "LD", 0x6000, 0xF000⟩, ⟨"7XNN", "ADD", 0x7000, 0xF000⟩]

/-- Rows 10 to 19 of R51. -/
def opcodeRowsB : List Row :=
  [⟨"8XY0", "LD", 0x8000, 0xF00F⟩, ⟨"8XY1", "OR", 0x8001, 0xF00F⟩, ⟨"8XY2", "AND", 0x8002, 0xF00F⟩,
   ⟨"8XY3", "XOR", 0x8003, 0xF00F⟩, ⟨"8XY4", "ADD", 0x8004, 0xF00F⟩, ⟨"8XY5", "SUB", 0x8005, 0xF00F⟩,
   ⟨"8XY6", "SHR", 0x8006, 0xF00F⟩, ⟨"8XY7", "SUBN", 0x8007, 0xF00F⟩, ⟨"8XYE", "SHL", 0x800E, 0xF00F⟩,
   ⟨"9XY0", "SNE", 0x9000, 0xF00F⟩]

/-- Rows 20 to 34 of R51. -/
def opcodeRowsC : List Row :=
  [⟨"ANNN", "LD", 0xA000, 0xF000⟩, ⟨"BNNN", "JP", 0xB000, 0xF000⟩, ⟨"CXNN", "RND", 0xC000, 0xF000⟩,
   ⟨"DXYN", "DRW", 0xD000, 0xF000⟩, ⟨"EX9E", "SKP", 0xE09E, 0xF0FF⟩, ⟨"EXA1", "SKNP", 0xE0A1, 0xF0FF⟩,
   ⟨"FX07", "LD", 0xF007, 0xF0FF⟩, ⟨"FX0A", "LD", 0xF00A, 0xF0FF⟩, ⟨"FX15", "LD", 0xF015, 0xF0FF⟩,
   ⟨"FX18", "LD", 0xF018, 0xF0FF⟩, ⟨"FX1E", "ADD", 0xF01E, 0xF0FF⟩, ⟨"FX29", "LD", 0xF029, 0xF0FF⟩,
   ⟨"FX33", "LD", 0xF033, 0xF0FF⟩, ⟨"FX55", "LD", 0xF055, 0xF0FF⟩, ⟨"FX65", "LD", 0xF065, 0xF0FF⟩]

/-- The complete opcode map (R51). -/
def opcodeTable : List Row := opcodeRowsA ++ opcodeRowsB ++ opcodeRowsC

/-- A word is well formed when some row of the map matches it (R50); every other word is unknown (R52). -/
def WellFormed (w : Word) : Bool := opcodeTable.any (·.covers w)

/-- The row of the opcode map that a constructor stands for (R51), by its place in the table. -/
def Instr.rowNumber : Instr → Nat
  | .cls => 0
  | .ret => 1
  | .jp _ => 2
  | .call _ => 3
  | .seImm _ _ => 4
  | .sneImm _ _ => 5
  | .seReg _ _ => 6
  | .ldImm _ _ => 7
  | .addImm _ _ => 8
  | .ldReg _ _ => 9
  | .orReg _ _ => 10
  | .andReg _ _ => 11
  | .xorReg _ _ => 12
  | .addReg _ _ => 13
  | .subReg _ _ => 14
  | .shr _ _ => 15
  | .subn _ _ => 16
  | .shl _ _ => 17
  | .sneReg _ _ => 18
  | .ldI _ => 19
  | .jpV0 _ => 20
  | .rnd _ _ => 21
  | .drw _ _ _ => 22
  | .skp _ => 23
  | .sknp _ => 24
  | .ldVxDt _ => 25
  | .ldVxKey _ => 26
  | .ldDtVx _ => 27
  | .ldStVx _ => 28
  | .addI _ => 29
  | .ldFont _ => 30
  | .ldBcd _ => 31
  | .storeRegs _ => 32
  | .loadRegs _ => 33

end Sys2Proof
end

