-- ==== Sys2Proof/Decode.lean ====
section
/-! DEFINITION. The decoder, a total function from words to `Instr` or Unknown (spec/30_encoding.md R49, R50), by
the document's two stages: the top nibble, then within a shared family a secondary nibble or byte, strict in
every fixed nibble (D11, log 15). After it the encoder, by the layouts of R46. -/

namespace Sys2Proof

/-! ### Fields of an opcode word (R45) -/

/-- `op`: bits 15..12. -/
def opNibble (w : Word) : Nibble := w.extractLsb' 12 4
/-- `X`: bits 11..8, as a nibble. -/
def nibbleX (w : Word) : Nibble := w.extractLsb' 8 4
/-- `Y`: bits 7..4, as a nibble. -/
def nibbleY (w : Word) : Nibble := w.extractLsb' 4 4
/-- `N`: bits 3..0. -/
def fieldN (w : Word) : Nibble := w.extractLsb' 0 4
/-- `NN`: bits 7..0. -/
def fieldNN (w : Word) : Byte := w.extractLsb' 0 8
/-- `NNN`: bits 11..0. -/
def fieldNNN (w : Word) : Addr12 := w.extractLsb' 0 12
/-- The register that the field `X` names. -/
def fieldX (w : Word) : RegIdx := (nibbleX w).toFin
/-- The register that the field `Y` names. -/
def fieldY (w : Word) : RegIdx := (nibbleY w).toFin

/-! ### The decoder -/

/-- What a word decodes to: an instruction, or Unknown, which names the word (R49, R52). -/
inductive Decoded where
  | instr (i : Instr)
  | unknown (w : Word)
  deriving DecidableEq, Repr

/-- Family 0: NN selects, and X must be 0 (R49). -/
def decodeFamily0 (w : Word) : Decoded :=
  if nibbleX w = 0x0 ∧ fieldNN w = 0xE0 then .instr .cls
  else if nibbleX w = 0x0 ∧ fieldNN w = 0xEE then .instr .ret
  else .unknown w

/-- Family 5: N selects (R49). -/
def decodeFamily5 (w : Word) : Decoded :=
  if fieldN w = 0x0 then .instr (.seReg (fieldX w) (fieldY w)) else .unknown w

/-- Family 8: N selects (R49). -/
def decodeFamily8 (w : Word) : Decoded :=
  if fieldN w = 0x0 then .instr (.ldReg (fieldX w) (fieldY w))
  else if fieldN w = 0x1 then .instr (.orReg (fieldX w) (fieldY w))
  else if fieldN w = 0x2 then .instr (.andReg (fieldX w) (fieldY w))
  else if fieldN w = 0x3 then .instr (.xorReg (fieldX w) (fieldY w))
  else if fieldN w = 0x4 then .instr (.addReg (fieldX w) (fieldY w))
  else if fieldN w = 0x5 then .instr (.subReg (fieldX w) (fieldY w))
  else if fieldN w = 0x6 then .instr (.shr (fieldX w) (fieldY w))
  else if fieldN w = 0x7 then .instr (.subn (fieldX w) (fieldY w))
  else if fieldN w = 0xE then .instr (.shl (fieldX w) (fieldY w))
  else .unknown w

/-- Family 9: N selects (R49). -/
def decodeFamily9 (w : Word) : Decoded :=
  if fieldN w = 0x0 then .instr (.sneReg (fieldX w) (fieldY w)) else .unknown w

/-- Family E: NN selects (R49). -/
def decodeFamilyE (w : Word) : Decoded :=
  if fieldNN w = 0x9E then .instr (.skp (fieldX w))
  else if fieldNN w = 0xA1 then .instr (.sknp (fieldX w))
  else .unknown w

/-- Family F: NN selects (R49). -/
def decodeFamilyF (w : Word) : Decoded :=
  if fieldNN w = 0x07 then .instr (.ldVxDt (fieldX w))
  else if fieldNN w = 0x0A then .instr (.ldVxKey (fieldX w))
  else if fieldNN w = 0x15 then .instr (.ldDtVx (fieldX w))
  else if fieldNN w = 0x18 then .instr (.ldStVx (fieldX w))
  else if fieldNN w = 0x1E then .instr (.addI (fieldX w))
  else if fieldNN w = 0x29 then .instr (.ldFont (fieldX w))
  else if fieldNN w = 0x33 then .instr (.ldBcd (fieldX w))
  else if fieldNN w = 0x55 then .instr (.storeRegs (fieldX w))
  else if fieldNN w = 0x65 then .instr (.loadRegs (fieldX w))
  else .unknown w

/-- The decoder: the top nibble selects the family (R49). -/
def decode (w : Word) : Decoded :=
  if opNibble w = 0x0 then decodeFamily0 w
  else if opNibble w = 0x1 then .instr (.jp (fieldNNN w))
  else if opNibble w = 0x2 then .instr (.call (fieldNNN w))
  else if opNibble w = 0x3 then .instr (.seImm (fieldX w) (fieldNN w))
  else if opNibble w = 0x4 then .instr (.sneImm (fieldX w) (fieldNN w))
  else if opNibble w = 0x5 then decodeFamily5 w
  else if opNibble w = 0x6 then .instr (.ldImm (fieldX w) (fieldNN w))
  else if opNibble w = 0x7 then .instr (.addImm (fieldX w) (fieldNN w))
  else if opNibble w = 0x8 then decodeFamily8 w
  else if opNibble w = 0x9 then decodeFamily9 w
  else if opNibble w = 0xA then .instr (.ldI (fieldNNN w))
  else if opNibble w = 0xB then .instr (.jpV0 (fieldNNN w))
  else if opNibble w = 0xC then .instr (.rnd (fieldX w) (fieldNN w))
  else if opNibble w = 0xD then .instr (.drw (fieldX w) (fieldY w) (fieldN w))
  else if opNibble w = 0xE then decodeFamilyE w
  else decodeFamilyF w

/-- The opcode word of two fetched bytes: the byte at the lower address is the high byte (R36, R57). -/
def wordOfBytes (high low : Byte) : Word := high ++ low

/-- The byte of a word at the lower address (R36). -/
def highByte (w : Word) : Byte := w.extractLsb' 8 8
/-- The byte of a word at the higher address (R36). -/
def lowByte (w : Word) : Byte := w.extractLsb' 0 8

/-- The decoder on the two bytes an instruction occupies (R44). -/
def decodeBytes (high low : Byte) : Decoded := decode (wordOfBytes high low)

/-- What the decoder reads from an instruction whose bits are `w`, numbered as spec/opcode_table.json numbers
them: one 16-bit word, of which `nbits` bits are given and the rest are 0, laid out in memory high byte
first (R36, R44). -/
def decodeTableWord (nbits w : Nat) : Option Instr :=
  let word : Word := BitVec.ofNat 16 (w % 2 ^ nbits)
  match decodeBytes (highByte word) (lowByte word) with
  | .instr i => some i
  | .unknown _ => none

/-! ### The encoder -/

/-- A register's nibble in an opcode word. -/
def regNibble (x : RegIdx) : Nibble := BitVec.ofFin (w := 4) x

/-- Format FA: op, NNN (R46). -/
def formatFA (op : Nibble) (nnn : Addr12) : Word := op ++ nnn
/-- Format FR: op, X, NN (R46); and format FX, where the byte is the function (R46). -/
def formatFR (op : Nibble) (x : RegIdx) (nn : Byte) : Word := op ++ (regNibble x ++ nn : BitVec 12)
/-- Format FRR: op, X, Y, function (R46); and format FD, where the nibble is N (R46). -/
def formatFRR (op : Nibble) (x y : RegIdx) (n : Nibble) : Word :=
  op ++ (regNibble x ++ (regNibble y ++ n : BitVec 8) : BitVec 12)

/-- The word of an instruction (R46, R51). -/
def encode : Instr → Word
  | .cls => 0x00E0
  | .ret => 0x00EE
  | .jp nnn => formatFA 0x1 nnn
  | .call nnn => formatFA 0x2 nnn
  | .seImm x nn => formatFR 0x3 x nn
  | .sneImm x nn => formatFR 0x4 x nn
  | .seReg x y => formatFRR 0x5 x y 0x0
  | .ldImm x nn => formatFR 0x6 x nn
  | .addImm x nn => formatFR 0x7 x nn
  | .ldReg x y => formatFRR 0x8 x y 0x0
  | .orReg x y => formatFRR 0x8 x y 0x1
  | .andReg x y => formatFRR 0x8 x y 0x2
  | .xorReg x y => formatFRR 0x8 x y 0x3
  | .addReg x y => formatFRR 0x8 x y 0x4
  | .subReg x y => formatFRR 0x8 x y 0x5
  | .shr x y => formatFRR 0x8 x y 0x6
  | .subn x y => formatFRR 0x8 x y 0x7
  | .shl x y => formatFRR 0x8 x y 0xE
  | .sneReg x y => formatFRR 0x9 x y 0x0
  | .ldI nnn => formatFA 0xA nnn
  | .jpV0 nnn => formatFA 0xB nnn
  | .rnd x nn => formatFR 0xC x nn
  | .drw x y n => formatFRR 0xD x y n
  | .skp x => formatFR 0xE x 0x9E
  | .sknp x => formatFR 0xE x 0xA1
  | .ldVxDt x => formatFR 0xF x 0x07
  | .ldVxKey x => formatFR 0xF x 0x0A
  | .ldDtVx x => formatFR 0xF x 0x15
  | .ldStVx x => formatFR 0xF x 0x18
  | .addI x => formatFR 0xF x 0x1E
  | .ldFont x => formatFR 0xF x 0x29
  | .ldBcd x => formatFR 0xF x 0x33
  | .storeRegs x => formatFR 0xF x 0x55
  | .loadRegs x => formatFR 0xF x 0x65

end Sys2Proof
end

