-- ==== Sys2Proof/Machine/Flags.lean ====
section
/-! DEFINITION. Every value an instruction writes to VF as a flag (spec/10_state.md R15), from the operands as they
were before the instruction (spec/40_cycle.md R61, D7). -/

namespace Sys2Proof.Machine

/-- A flag in VF is 1 or 0. -/
def flagByte (b : Bool) : Byte := if b then 1 else 0

/-- 8XY4: 1 when the exact sum exceeds a byte (R80). -/
def carryFlag (vx vy : Byte) : Byte := flagByte (decide (vx.toNat + vy.toNat > 0xFF))

/-- 8XY5, 8XY7: 1 when no borrow occurs in `minuend - subtrahend`, equal operands included (R73, R81, R83). -/
def noBorrowFlag (minuend subtrahend : Byte) : Byte :=
  if subtrahend.toNat > minuend.toNat then flagByte false else flagByte true

/-- 8XY6: the bit shifted out, old bit 0 (R82). -/
def shiftedOutRight (vx : Byte) : Byte := vx &&& 1

/-- 8XYE: the bit shifted out, old bit 7 (R84). -/
def shiftedOutLeft (vx : Byte) : Byte := vx >>> 7

/-- FX1E: 1 when the exact sum exceeds 0xFFF (R88, D28). -/
def indexFlag (sum : Nat) : Byte := flagByte (decide (sum > 0x0FFF))

/-- DXYN: 1 when some cell went from 1 to 0 (R95). -/
def collisionFlag (collided : Bool) : Byte := flagByte collided

end Sys2Proof.Machine
end

