-- ==== Sys2Proof/Config.lean ====
section
/-! DEFINITION. The implementation parameters the spec fixes (spec/00_scope.md R6), and the one value it
leaves free at every use (R7: the random byte of CXNN). The other open parameter of R7, FONT, is the field
`font` of the state (log 1). -/

namespace Sys2Proof

/-- `MEM_SIZE`: 4096 bytes, addresses 0x000..0xFFF (R6). -/
def Config.memSize : Nat := 4096

/-- `FONT_SIZE`: 80 bytes, 16 glyphs of 5 bytes, at address 0 (R6, R34). -/
def Config.fontSize : Nat := 80

/-- `PROGRAM_BASE`: where a program is loaded, and the pc after reset (R6). -/
def Config.programBase : Nat := 0x200

/-- `MAX_IMAGE`: the longest program image, 4096 - 512 bytes (R6, R119). -/
def Config.maxImage : Nat := 3584

/-- The random byte of CXNN (R7, R85, D13): a FREE VALUE. `Config.randByte n` is the byte that the CXNN
execution numbered `n` draws. It has no body, so nothing can be proved of it beyond its width, and a claim
about it holds for every draw, under no law. Safe (log 2). -/
opaque Config.randByte : Nat → Byte

end Sys2Proof
end

