-- ==== Sys2Proof/Machine/Font.lean ====
section
/-! DEFINITION. The default of the parameter FONT (spec/92_eei_decisions.md D14; spec/00_scope.md R7). -/

namespace Sys2Proof.Machine

/-- Glyphs 0 to 7, five bytes each. PRESUMED (D14, from general knowledge, not in the source; log 1). -/
def fontGlyphsLow : List Byte :=
  [0xF0, 0x90, 0x90, 0x90, 0xF0,  0x20, 0x60, 0x20, 0x20, 0x70,
   0xF0, 0x10, 0xF0, 0x80, 0xF0,  0xF0, 0x10, 0xF0, 0x10, 0xF0,
   0x90, 0x90, 0xF0, 0x10, 0x10,  0xF0, 0x80, 0xF0, 0x10, 0xF0,
   0xF0, 0x80, 0xF0, 0x90, 0xF0,  0xF0, 0x10, 0x20, 0x40, 0x40]

/-- Glyphs 8 to F, five bytes each. PRESUMED (D14, from general knowledge, not in the source; log 1). -/
def fontGlyphsHigh : List Byte :=
  [0xF0, 0x90, 0xF0, 0x90, 0xF0,  0xF0, 0x90, 0xF0, 0x10, 0xF0,
   0xF0, 0x90, 0xF0, 0x90, 0x90,  0xE0, 0x90, 0xE0, 0x90, 0xE0,
   0xF0, 0x80, 0x80, 0x80, 0xF0,  0xE0, 0x90, 0x90, 0x90, 0xE0,
   0xF0, 0x80, 0xF0, 0x80, 0xF0,  0xF0, 0x80, 0xF0, 0x80, 0x80]

/-- The conventional 80-byte font, in glyph order: the value `State.reset` gives the parameter FONT. The spec
gives FONT no bytes of its own; no statement may rest on these (log 1). PRESUMED, unsafe for runs from reset that
read a glyph. -/
def defaultFont : Vector Byte 80 := ⟨(fontGlyphsLow ++ fontGlyphsHigh).toArray, by decide⟩

end Sys2Proof.Machine
end

