-- ==== Sys2Proof/Machine/State.lean ====
section
/-! DEFINITION. The state of the Machine (spec/10_state.md R13), the reasons a step could stop, and the state after
`init` (R28; spec/70_reset_and_hazards.md R118). Three fields are the model's own: `font`, `draws`, `events`. -/

namespace Sys2Proof.Machine

/-- The 64 x 32 grid of one-bit cells (R22), rows of columns: row y, then column x, from the top left. -/
abbrev Framebuffer := Vector (Vector Bool 64) 32

/-- Memory as the list of the bytes that differ from their reset contents, by address (log 5). -/
abbrev Memory := List Host.Cell

/-- An event of a step (R26). -/
inductive Event where
  /-- `Diag(w, a)`: the unknown word `w` was fetched at `a` (R105). -/
  | diag (w a : Word)
  /-- `Beep`: the tick found ST = 1 (R111). -/
  | beep
  deriving DecidableEq, Repr

/-- Everything the spec gives the Machine (R13), and the model's three fields. -/
structure State where
  /-- V0..VF (R14, R15). -/
  v : Vector Byte 16
  /-- The index register I (R16). -/
  i : Word
  /-- The program counter (R17). -/
  pc : Word
  /-- The stack pointer, the index of the next free slot (R18). -/
  sp : Fin 16
  /-- The return addresses (R18). -/
  stack : Vector Word 16
  /-- The delay timer DT (R19). -/
  dt : Byte
  /-- The sound timer ST (R20). -/
  st : Byte
  /-- The keypad, true = down (R21). -/
  key : Vector Bool 16
  /-- The framebuffer (R22). -/
  fb : Framebuffer
  /-- The redraw-requested flag (R23). -/
  redraw : Bool
  /-- The bytes of memory that differ from their reset contents (R24; log 5). -/
  mem : Memory
  /-- The MODEL's: the parameter FONT (R7). No instruction and no host operation writes it (log 1). -/
  font : Vector Byte 80
  /-- The MODEL's: how many bytes CXNN has drawn, the index of the next free byte (R7, R85; log 2, log 3). -/
  draws : Nat
  /-- The MODEL's: the events of the most recent step, in order (R26, R29; log 4). -/
  events : List Event
  deriving DecidableEq, Repr

/-- Why the Machine would stop with a fault: never. "The Machine has no trap, exception or fault mechanism" (R103), so
the type has no constructor, and no model of a step can raise one. Safe. -/
inductive Fault where
  deriving DecidableEq, Repr

/-- Why an instruction would be refused. -/
inductive Refusal where
  /-- An instruction of the table that has no meaning yet, by its mnemonic: raised by `exec` only, and in this model by
  no arm of it (every row has its meaning). Safe. -/
  | notModelled (mnemonic : String)
  deriving DecidableEq, Repr

/-- The Machine right after `init` (R28, R118): memory holds the font and zeros (nothing listed), every other
element 0, but pc = 0x200 and redraw = true. The values of `font`, `draws` and `events` are the model's (log 1, 3, 4). -/
def State.reset : State where
  v := Vector.replicate 16 0x00
  i := 0x0000
  pc := 0x0200
  sp := 0
  stack := Vector.replicate 16 0x0000
  dt := 0
  st := 0
  key := Vector.replicate 16 false
  fb := Vector.replicate 32 (Vector.replicate 64 false)
  redraw := true
  mem := []
  font := defaultFont
  draws := 0
  events := []

end Sys2Proof.Machine
end

