-- ==== Sys2Proof/Machine/Operands.lean ====
section
/-! DEFINITION. The operand forms: what an instruction computes from a field or a register before it acts. No
operand is sign-extended, scaled or shifted (spec/30_encoding.md R47). -/

namespace Sys2Proof.Machine

/-- `zext_16(NNN)` (R47). -/
def immAddr (nnn : Addr12) : Word := nnn.setWidth 16

/-- `NNN + V0`, the target of BNNN (R72). -/
def jumpTarget (nnn : Addr12) (v0 : Byte) : Word := immAddr nnn + v0.setWidth 16

/-- The key that a register's value selects: VX mod 16 (R97, D5). -/
def keyIndex (vx : Byte) : Fin 16 := Fin.ofNat 16 vx.toNat

/-- The address of the glyph that a register's value selects: VX * 5, unmasked (R89, D32). -/
def glyphAddr (vx : Byte) : Word := BitVec.ofNat 16 (vx.toNat * 5)

/-- The hundreds digit of a byte, 0..2 (R90). -/
def hundreds (vx : Byte) : Byte := BitVec.ofNat 8 (vx.toNat / 100)
/-- The tens digit of a byte (R90). -/
def tens (vx : Byte) : Byte := BitVec.ofNat 8 (vx.toNat / 10 % 10)
/-- The units digit of a byte (R90). -/
def units (vx : Byte) : Byte := BitVec.ofNat 8 (vx.toNat % 10)

/-- The sum `I + VX` of FX1E, exact (R88). -/
def indexSum (i : Word) (vx : Byte) : Nat := i.toNat + vx.toNat

/-- I after FX55 and FX65: `(i + X + 1) mod 2^16` (R91, R92). -/
def indexAfter (i : Word) (x : RegIdx) : Word := BitVec.ofNat 16 (i.toNat + x.val + 1)

/-- The column of pixel `c` of a sprite row that starts at VX: `(VX + c) mod 64` (R93, R95). -/
def spriteCol (vx : Byte) (c : Nat) : Fin 64 := Fin.ofNat 64 (vx.toNat + c)
/-- The row of the framebuffer for row `r` of a sprite that starts at VY: `(VY + r) mod 32` (R93, R95). -/
def spriteRow (vy : Byte) (r : Nat) : Fin 32 := Fin.ofNat 32 (vy.toNat + r)

/-- Every key index, from 0 up. -/
def keyIndexes : List (Fin 16) := [0, 1, 2, 3, 4, 5, 6, 7, 8, 9, 10, 11, 12, 13, 14, 15]

/-- The least key that is down, if one is (R100, D6). -/
def leastKeyDown (key : Vector Bool 16) : Option (Fin 16) := keyIndexes.find? (fun k => key.get k)

/-- A key's number as a register value (R100). -/
def keyNumber (k : Fin 16) : Byte := BitVec.ofNat 8 k.val

end Sys2Proof.Machine
end

