-- ==== Sys2Proof/Machine/Ops.lean ====
section
/-! DEFINITION. The named operations over memory, registers, stack, framebuffer, timers and events that the
meanings are built from. The Machine has no exception to take and none to return from (spec/60_exceptions.md R103,
R108); the one step that runs no instruction, the unknown word, is `State.unknownOpcode` (R105). -/

namespace Sys2Proof.Machine

/-! ### Memory (R30, R32, R33) -/

/-- Every address is reduced mod 4096 before the access (R32, D1; log 6). -/
def wrapAddr (a : Nat) : Nat := a % Config.memSize

/-- What an unlisted address reads as, its reset contents: FONT at 0x000..0x04F, zero elsewhere (R28, R34; log 5). -/
def unlistedByte (font : Vector Byte 80) (a : Nat) : Byte := if h : a < 80 then font[a] else 0x00

/-- The byte at an address of the sorted list, or what an unlisted address reads as. -/
def Memory.read (unlisted : Nat → Byte) : Memory → Nat → Byte
  | [], a => unlisted a
  | (b, x) :: m, a => if a < b then unlisted a else if a = b then x else Memory.read unlisted m a

/-- Writes one byte and keeps the canonical form: the address goes in its place in the order, and an entry equal to
what the unlisted address reads as is not kept. (`dropWhile` drops nothing from a canonical list; with it a write
reads back in every list whatever.) -/
def Memory.write (unlisted : Nat → Byte) : Memory → Nat → Byte → Memory
  | [], a, x => if x = unlisted a then [] else [(a, x)]
  | (b, y) :: m, a, x =>
    if a < b then (if x = unlisted a then (b, y) :: m else (a, x) :: (b, y) :: m)
    else if a = b then
      (if x = unlisted a then m.dropWhile (fun c => decide (c.1 ≤ a)) else (a, x) :: m)
    else (b, y) :: Memory.write unlisted m a x

/-- The canonical form from an address up: addresses rise strictly and stay below 4096, and no entry equals what its
address reads as when unlisted. -/
def Memory.wfFrom (unlisted : Nat → Byte) : Nat → Memory → Bool
  | _, [] => true
  | low, (a, x) :: m =>
    decide (low ≤ a) && decide (a < Config.memSize) && decide (x ≠ unlisted a) && Memory.wfFrom unlisted (a + 1) m

/-- The canonical form. -/
def Memory.wf (unlisted : Nat → Byte) (m : Memory) : Bool := Memory.wfFrom unlisted 0 m

/-- `MemRead(a, 1)` (R33). -/
def State.readByte (s : State) (a : Nat) : Byte := Memory.read (unlistedByte s.font) s.mem (wrapAddr a)

/-- `MemWrite(a, 1, x)` (R33). -/
def State.writeByte (s : State) (a : Nat) (x : Byte) : State :=
  { s with mem := Memory.write (unlistedByte s.font) s.mem (wrapAddr a) x }

/-- Bytes written at ascending addresses from `a` (R119). -/
def State.writeBytes : Nat → List Byte → State → State
  | _, [], s => s
  | a, x :: xs, s => State.writeBytes (a + 1) xs (s.writeByte a x)

/-! ### Registers (R14 to R18) -/

/-- `V[x]`. -/
def State.reg (s : State) (x : RegIdx) : Byte := s.v.get x
/-- `V[x] <- b`. -/
def State.setReg (s : State) (x : RegIdx) (b : Byte) : State := { s with v := s.v.set x.val b }
/-- `V[F] <- b`, the flag write, the last register write of a flag-setting instruction (R61, D7; log 11). -/
def State.setFlag (s : State) (b : Byte) : State := s.setReg flagReg b
/-- `I <- a`. -/
def State.setI (s : State) (a : Word) : State := { s with i := a }
/-- `pc <- a`. -/
def State.setPc (s : State) (a : Word) : State := { s with pc := a }

/-- `(pc + 2) mod 2^16` (R60, D2; log 7). -/
def nextPc (pc : Word) : Word := pc + 2
/-- Where a skip goes: over the next 2 bytes if the condition holds (R60). -/
def skipPc (c : Bool) (pc : Word) : Word := if c then pc + 4 else nextPc pc

/-- `next` (R60). -/
def State.next (s : State) : State := s.setPc (nextPc s.pc)
/-- `skip_if(c)` (R60). -/
def State.skipIf (s : State) (c : Bool) : State := s.setPc (skipPc c s.pc)

/-- The return address in a slot of the stack. -/
def State.slot (s : State) (k : Fin 16) : Word := s.stack.get k
/-- `push(a)`: into the next free slot, and sp up mod 16 (R18, D4; log 9). -/
def State.push (s : State) (a : Word) : State := { s with stack := s.stack.set s.sp.val a, sp := s.sp + 1 }
/-- The stack pointer after a pop, down mod 16 (R18, D4; log 9). -/
def State.popped (s : State) : State := { s with sp := s.sp - 1 }

/-- `for k in 0 .. n-1: MemWrite(i + k, 1, V[k])`, ascending (R38, R91). -/
def State.storeRegsUpTo (i : Nat) : Nat → State → State
  | 0, s => s
  | n + 1, s =>
    let t := State.storeRegsUpTo i n s
    t.writeByte (i + n) (t.reg (Fin.ofNat 16 n))

/-- `for k in 0 .. n-1: V[k] <- MemRead(i + k, 1)`, ascending (R38, R92). -/
def State.loadRegsUpTo (i : Nat) : Nat → State → State
  | 0, s => s
  | n + 1, s =>
    let t := State.loadRegsUpTo i n s
    t.setReg (Fin.ofNat 16 n) (t.readByte (i + n))

/-! ### Keypad (R21) -/

/-- Whether a key is down. -/
def State.keyDown (s : State) (k : Fin 16) : Bool := s.key.get k

/-! ### Framebuffer (R22, R93) -/

/-- `FB[x, y]`. -/
def Framebuffer.cell (f : Framebuffer) (x : Fin 64) (y : Fin 32) : Bool := (Vector.get f y).get x
/-- `FB[x, y] <- FB[x, y] ^ 1`. -/
def Framebuffer.flip (f : Framebuffer) (x : Fin 64) (y : Fin 32) : Framebuffer :=
  f.set y.val ((Vector.get f y).set x.val (!Framebuffer.cell f x y))
/-- Every cell 0. -/
def Framebuffer.blank : Framebuffer := Vector.replicate 32 (Vector.replicate 64 false)

/-- `FB[x, y]` of a state. -/
def State.pixel (s : State) (x : Fin 64) (y : Fin 32) : Bool := Framebuffer.cell s.fb x y

/-- A drawing in progress: the framebuffer, and whether a set cell has been cleared (`col` of R95). -/
structure Canvas where
  fb : Framebuffer
  collided : Bool
  deriving DecidableEq, Repr

/-- One set sprite bit: note a collision if the cell was set, then flip it (R95). -/
def Canvas.flip (c : Canvas) (x : Fin 64) (y : Fin 32) : Canvas :=
  ⟨Framebuffer.flip c.fb x y, c.collided || Framebuffer.cell c.fb x y⟩

/-- The first `n` columns of one sprite row, bit 7 leftmost (R93, R95). -/
def Canvas.drawRow (row vx : Byte) (y : Fin 32) : Nat → Canvas → Canvas
  | 0, c => c
  | n + 1, c =>
    let d := Canvas.drawRow row vx y n c
    if row.getLsbD (7 - n) then d.flip (spriteCol vx n) y else d

/-- The first `n` rows of a sprite whose row `r` is the byte `rows r` (R95). -/
def Canvas.drawRows (rows : Nat → Byte) (vx vy : Byte) : Nat → Canvas → Canvas
  | 0, c => c
  | n + 1, c => Canvas.drawRow (rows n) vx (spriteRow vy n) 8 (Canvas.drawRows rows vx vy n c)

/-- The framebuffer and the collision of an `n`-row sprite read at I and drawn at (vx, vy) (R95). -/
def State.drawn (s : State) (vx vy : Byte) (n : Nat) : Canvas :=
  Canvas.drawRows (fun r => s.readByte (s.i.toNat + r)) vx vy n ⟨s.fb, false⟩

/-- Puts a drawing on the screen and requests a redraw (R23, R94, R95). -/
def State.present (s : State) (f : Framebuffer) : State := { s with fb := f, redraw := true }

/-! ### Timers (R19, R20, R110) -/

/-- `DT <- b`. -/
def State.setDt (s : State) (b : Byte) : State := { s with dt := b }
/-- `ST <- b`. -/
def State.setSt (s : State) (b : Byte) : State := { s with st := b }
/-- Appends an event to the step's list (R26). -/
def State.emit (s : State) (e : Event) : State := { s with events := s.events ++ [e] }

/-- `if DT > 0: DT <- DT - 1` (R110). -/
def State.tickDelay (s : State) : State := if s.dt = 0#8 then s else s.setDt (s.dt - 1#8)

/-- `if ST > 0: (if ST == 1: emit Beep); ST <- ST - 1` (R110, R111). -/
def State.tickSound (s : State) : State :=
  if s.st = 0#8 then s
  else if s.st = 1#8 then (s.emit .beep).setSt (s.st - 1#8)
  else s.setSt (s.st - 1#8)

/-- The tick that closes every step (R110, D16; log 10). -/
def State.tick (s : State) : State := s.tickDelay.tickSound

/-! ### The free byte of CXNN (R7, R85) -/

/-- `draw rand`: the free byte at the counter (log 2). -/
def State.drawnByte (s : State) : Byte := Config.randByte s.draws
/-- The next draw is a fresh one (log 3). -/
def State.advanceDraws (s : State) : State := { s with draws := s.draws + 1 }

/-! ### The step's parts (R57, R58, R105) -/

/-- The word at pc, high byte first, both addresses reduced mod 4096 (R57). -/
def State.fetch (s : State) : Word := wordOfBytes (s.readByte s.pc.toNat) (s.readByte (s.pc.toNat + 1))

/-- `events <- []` (R58). -/
def State.beginStep (s : State) : State := { s with events := [] }

/-- The effect of an unknown word: a diagnostic with the word and its address, and pc + 2 (R105). -/
def State.unknownOpcode (s : State) (w : Word) : State := (s.emit (.diag w s.pc)).next

/-- The end of a step: the tick, after the instruction's effect (R58). -/
def finishStep (r : Host.Outcome State Fault Refusal) : Host.Outcome State Fault Refusal :=
  match r with
  | .next t => .next t.tick
  | .fault f => .fault f
  | .refused f => .refused f

end Sys2Proof.Machine
end

