-- ==== Sys2Proof/Machine/Alu.lean ====
section
/-! DEFINITION. Register loads and arithmetic: 6XNN, 7XNN, 8XY0 to 8XY7, 8XYE, CXNN (spec/42_alu.md). Operands are
read from the state before any write, and the flag is written last (R61). -/

namespace Sys2Proof.Machine

/-- Writes a result to VX, without a flag, and goes on. -/
def State.putReg (s : State) (x : RegIdx) (result : Byte) : State := (s.setReg x result).next

/-- Writes a result to VX, then the flag to VF (last, so that it stands when X = F), and goes on (R61, C3). -/
def State.putRegFlag (s : State) (x : RegIdx) (result flag : Byte) : State :=
  ((s.setReg x result).setFlag flag).next

/-- 6XNN LD Vx, byte (R74). -/
def execLdImm (x : RegIdx) (nn : Byte) (s : State) : Host.Outcome State Fault Refusal := .next (s.putReg x nn)

/-- 7XNN ADD Vx, byte (R75): wraps, and VF is no flag of it (D8; log 12). -/
def execAddImm (x : RegIdx) (nn : Byte) (s : State) : Host.Outcome State Fault Refusal :=
  .next (s.putReg x (s.reg x + nn))

/-- 8XY0 LD Vx, Vy (R76). -/
def execLdReg (x y : RegIdx) (s : State) : Host.Outcome State Fault Refusal := .next (s.putReg x (s.reg y))

/-- 8XY1 OR Vx, Vy (R77, D8). -/
def execOr (x y : RegIdx) (s : State) : Host.Outcome State Fault Refusal := .next (s.putReg x (s.reg x ||| s.reg y))

/-- 8XY2 AND Vx, Vy (R78, D8). -/
def execAnd (x y : RegIdx) (s : State) : Host.Outcome State Fault Refusal := .next (s.putReg x (s.reg x &&& s.reg y))

/-- 8XY3 XOR Vx, Vy (R79, D8). -/
def execXor (x y : RegIdx) (s : State) : Host.Outcome State Fault Refusal := .next (s.putReg x (s.reg x ^^^ s.reg y))

/-- 8XY4 ADD Vx, Vy (R80). -/
def execAddReg (x y : RegIdx) (s : State) : Host.Outcome State Fault Refusal :=
  .next (s.putRegFlag x (s.reg x + s.reg y) (carryFlag (s.reg x) (s.reg y)))

/-- 8XY5 SUB Vx, Vy (R81): the comparison is of the operands before the write (C2). -/
def execSub (x y : RegIdx) (s : State) : Host.Outcome State Fault Refusal :=
  .next (s.putRegFlag x (s.reg x - s.reg y) (noBorrowFlag (s.reg x) (s.reg y)))

/-- 8XY6 SHR Vx (R82): VY is neither read nor written (D34; log 13). -/
def execShr (x _y : RegIdx) (s : State) : Host.Outcome State Fault Refusal :=
  .next (s.putRegFlag x (s.reg x >>> 1) (shiftedOutRight (s.reg x)))

/-- 8XY7 SUBN Vx, Vy (R83). -/
def execSubn (x y : RegIdx) (s : State) : Host.Outcome State Fault Refusal :=
  .next (s.putRegFlag x (s.reg y - s.reg x) (noBorrowFlag (s.reg y) (s.reg x)))

/-- 8XYE SHL Vx (R84): VY is neither read nor written (D34; log 13). -/
def execShl (x _y : RegIdx) (s : State) : Host.Outcome State Fault Refusal :=
  .next (s.putRegFlag x (s.reg x <<< 1) (shiftedOutLeft (s.reg x)))

/-- CXNN RND Vx, byte (R85): the free byte of this execution, masked; the next execution draws another. -/
def execRnd (x : RegIdx) (nn : Byte) (s : State) : Host.Outcome State Fault Refusal :=
  .next (s.advanceDraws.putReg x (s.drawnByte &&& nn))

end Sys2Proof.Machine
end

