-- ==== Sys2Proof/Machine/Display.lean ====
section
/-! DEFINITION. Display: 00E0 and DXYN (spec/44_display.md). -/

namespace Sys2Proof.Machine

/-- 00E0 CLS (R94): sets the redraw flag whether or not a cell changed (C5, D10; log 16). -/
def execCls (s : State) : Host.Outcome State Fault Refusal := .next (s.present Framebuffer.blank).next

/-- DXYN DRW Vx, Vy, nibble (R95): the coordinates are the registers before the instruction, VF is written last. -/
def execDrw (x y : RegIdx) (n : Nibble) (s : State) : Host.Outcome State Fault Refusal :=
  let d := s.drawn (s.reg x) (s.reg y) n.toNat
  .next ((s.present d.fb).setFlag (collisionFlag d.collided)).next

end Sys2Proof.Machine
end

