-- ==== Sys2Proof/Machine/Flow.lean ====
section
/-! DEFINITION. Control flow: 00EE, 1NNN, 2NNN, 3XNN, 4XNN, 5XY0, 9XY0, BNNN (spec/41_flow.md). -/

namespace Sys2Proof.Machine

/-- 00EE RET (R65): pops the address of the call, and resumes after it. -/
def execRet (s : State) : Host.Outcome State Fault Refusal :=
  let t := s.popped
  .next (t.setPc (nextPc (t.slot t.sp)))

/-- 1NNN JP addr (R66). -/
def execJp (nnn : Addr12) (s : State) : Host.Outcome State Fault Refusal := .next (s.setPc (immAddr nnn))

/-- 2NNN CALL addr (R67): pushes the address of this instruction itself. -/
def execCall (nnn : Addr12) (s : State) : Host.Outcome State Fault Refusal :=
  .next ((s.push s.pc).setPc (immAddr nnn))

/-- 3XNN SE Vx, byte (R68). -/
def execSeImm (x : RegIdx) (nn : Byte) (s : State) : Host.Outcome State Fault Refusal :=
  .next (s.skipIf (decide (s.reg x = nn)))

/-- 4XNN SNE Vx, byte (R69). -/
def execSneImm (x : RegIdx) (nn : Byte) (s : State) : Host.Outcome State Fault Refusal :=
  .next (s.skipIf (decide (s.reg x ≠ nn)))

/-- 5XY0 SE Vx, Vy (R70). -/
def execSeReg (x y : RegIdx) (s : State) : Host.Outcome State Fault Refusal :=
  .next (s.skipIf (decide (s.reg x = s.reg y)))

/-- 9XY0 SNE Vx, Vy (R71). -/
def execSneReg (x y : RegIdx) (s : State) : Host.Outcome State Fault Refusal :=
  .next (s.skipIf (decide (s.reg x ≠ s.reg y)))

/-- BNNN JP V0, addr (R72): always V0 (D33; log 18). -/
def execJpV0 (nnn : Addr12) (s : State) : Host.Outcome State Fault Refusal :=
  .next (s.setPc (jumpTarget nnn (s.reg 0)))

end Sys2Proof.Machine
end

