-- ==== Sys2Proof/Machine/IndexMemory.lean ====
section
/-! DEFINITION. Index register and memory transfer: ANNN, FX1E, FX29, FX33, FX55, FX65 (spec/43_index_memory.md). -/

namespace Sys2Proof.Machine

/-- ANNN LD I, addr (R87). -/
def execLdI (nnn : Addr12) (s : State) : Host.Outcome State Fault Refusal := .next (s.setI (immAddr nnn)).next

/-- FX1E ADD I, Vx (R88): the flag is of the exact sum (D28; log 14), and is the last register write. -/
def execAddI (x : RegIdx) (s : State) : Host.Outcome State Fault Refusal :=
  let sum := indexSum s.i (s.reg x)
  .next ((s.setI (BitVec.ofNat 16 sum)).setFlag (indexFlag sum)).next

/-- FX29 LD F, Vx (R89). -/
def execLdFont (x : RegIdx) (s : State) : Host.Outcome State Fault Refusal :=
  .next (s.setI (glyphAddr (s.reg x))).next

/-- FX33 LD B, Vx (R90): I is unchanged. -/
def execLdBcd (x : RegIdx) (s : State) : Host.Outcome State Fault Refusal :=
  let vx := s.reg x
  let i := s.i.toNat
  .next (((s.writeByte i (hundreds vx)).writeByte (i + 1) (tens vx)).writeByte (i + 2) (units vx)).next

/-- FX55 LD [I], Vx (R91): V0 to VX inclusive, then I up by X + 1 once. -/
def execStoreRegs (x : RegIdx) (s : State) : Host.Outcome State Fault Refusal :=
  .next ((State.storeRegsUpTo s.i.toNat (x.val + 1) s).setI (indexAfter s.i x)).next

/-- FX65 LD Vx, [I] (R92): V0 to VX inclusive, then I up by X + 1 once. -/
def execLoadRegs (x : RegIdx) (s : State) : Host.Outcome State Fault Refusal :=
  .next ((State.loadRegsUpTo s.i.toNat (x.val + 1) s).setI (indexAfter s.i x)).next

end Sys2Proof.Machine
end

