-- ==== Sys2Proof/Machine/KeysTimers.lean ====
section
/-! DEFINITION. Keypad and timers: EX9E, EXA1, FX07, FX0A, FX15, FX18 (spec/45_keys_timers.md). The step's tick follows
each of them (R96, R110), so these meanings do not tick. -/

namespace Sys2Proof.Machine

/-- EX9E SKP Vx (R97). -/
def execSkp (x : RegIdx) (s : State) : Host.Outcome State Fault Refusal :=
  .next (s.skipIf (s.keyDown (keyIndex (s.reg x))))

/-- EXA1 SKNP Vx (R98). -/
def execSknp (x : RegIdx) (s : State) : Host.Outcome State Fault Refusal :=
  .next (s.skipIf (!s.keyDown (keyIndex (s.reg x))))

/-- FX07 LD Vx, DT (R99): the value before this step's tick. -/
def execLdVxDt (x : RegIdx) (s : State) : Host.Outcome State Fault Refusal := .next (s.setReg x s.dt).next

/-- FX0A LD Vx, K (R100): with no key down, no write at all, so pc stays; else the least key down (D6; log 17). -/
def execLdVxKey (x : RegIdx) (s : State) : Host.Outcome State Fault Refusal :=
  match leastKeyDown s.key with
  | none => .next s
  | some k => .next (s.setReg x (keyNumber k)).next

/-- FX15 LD DT, Vx (R101). -/
def execLdDtVx (x : RegIdx) (s : State) : Host.Outcome State Fault Refusal := .next (s.setDt (s.reg x)).next

/-- FX18 LD ST, Vx (R102). -/
def execLdStVx (x : RegIdx) (s : State) : Host.Outcome State Fault Refusal := .next (s.setSt (s.reg x)).next

end Sys2Proof.Machine
end

