-- ==== Sys2Proof/Machine/Step.lean ====
section
/-! DEFINITION. One step: fetch, decode, execute, tick (spec/40_cycle.md R58). -/

namespace Sys2Proof.Machine

/-- The complete step (R58): the events start empty, the word at pc is decoded, an instruction has its effect or an
unknown word its own (R105), and the tick follows. -/
def step (s : State) : Host.Outcome State Fault Refusal :=
  match decode s.fetch with
  | .instr i => finishStep (exec i s.beginStep)
  | .unknown w => finishStep (.next (s.beginStep.unknownOpcode w))

/-- `s` with the instruction word of `nbits` bits `w` (the bits above them 0) stored where `step` fetches: the high byte
at pc, the low byte at pc + 1 (R36, R57). Nothing else changes. -/
def State.withFetchWord (s : State) (nbits w : Nat) : State :=
  let word : Word := BitVec.ofNat 16 (w % 2 ^ nbits)
  (s.writeByte s.pc.toNat (highByte word)).writeByte (s.pc.toNat + 1) (lowByte word)

end Sys2Proof.Machine
end

