-- ==== Sys2Proof/Machine/HostOps.lean ====
section
/-! DEFINITION. The host's operations on the Machine (spec/60_exceptions.md R114), which run only between steps
(spec/20_memory.md R40): "These are the entire surface the excluded host layer uses; no other state is host-writable." -/

namespace Sys2Proof.Machine

/-- What `load_program` answers (R104, R119). -/
inductive LoadResult where
  | loaded
  /-- The image is longer than 3584 bytes; nothing was written. -/
  | programTooLarge
  deriving DecidableEq, Repr

/-- `init()` (R118): every element of the spec at its reset value. The parameter FONT is the same one, and the
count of draws goes on, so that no draw is repeated (log 1, log 3). -/
def State.init (s : State) : State := { State.reset with font := s.font, draws := s.draws }

/-- `load_program(bytes)` (R119): all of the image or nothing. -/
def loadProgram (image : List Byte) (s : State) : LoadResult × State :=
  if image.length > Config.maxImage then (.programTooLarge, s)
  else (.loaded, State.writeBytes Config.programBase image s)

/-- `set_key(index, down)` (R21, R114, D24). -/
def setKey (index : Fin 16) (down : Bool) (s : State) : State := { s with key := s.key.set index.val down }

/-- `framebuffer()`: the 2048 cells, cell (x, y) at index y * 64 + x (R22, D23). -/
def framebufferView (s : State) : Vector Bool 2048 :=
  Vector.ofFn (fun k => s.pixel (Fin.ofNat 64 k.val) (Fin.ofNat 32 (k.val / 64)))

/-- `redraw_requested()` (R114). -/
def redrawRequested (s : State) : Bool := s.redraw

/-- `clear_redraw_flag()` (R23, R114). -/
def clearRedrawFlag (s : State) : State := { s with redraw := false }

/-- A host operation (R114). -/
inductive HostCall where
  | init
  | loadProgram (image : List Byte)
  | setKey (index : Fin 16) (down : Bool)
  | framebuffer
  | redrawRequested
  | clearRedrawFlag
  | step
  deriving DecidableEq, Repr

/-- What a host operation answers. -/
inductive HostReply where
  | done
  | load (r : LoadResult)
  | view (cells : Vector Bool 2048)
  | flag (b : Bool)
  | events (es : List Event)
  deriving DecidableEq, Repr

/-- One operation of the host: the state after it and its answer (R114). -/
def hostCall (c : HostCall) (s : State) : Host.Outcome (State × HostReply) Fault Refusal :=
  match c with
  | .init => .next (s.init, .done)
  | .loadProgram image => .next ((loadProgram image s).2, .load (loadProgram image s).1)
  | .setKey index down => .next (setKey index down s, .done)
  | .framebuffer => .next (s, .view (framebufferView s))
  | .redrawRequested => .next (s, .flag (redrawRequested s))
  | .clearRedrawFlag => .next (clearRedrawFlag s, .done)
  | .step =>
    match step s with
    | .next t => .next (t, .events t.events)
    | .fault r => .fault r
    | .refused r => .refused r

end Sys2Proof.Machine
end

