-- ==== Sys2Proof/Safety.lean ====
section
/-! DEFINITION. The terms claims are stated in: the invariant of the model's state, safe runs, and what it means that
an instruction leaves a kind of state as it was. -/

namespace Sys2Proof.Machine

/-! ### The invariant -/

/-- The event lists one step can produce: at most one Diag, at most one Beep, Diag first (R26, R107). -/
def eventsOrdered : List Event → Bool
  | [] => true
  | [_] => true
  | [.diag _ _, .beep] => true
  | _ => false

/-- The memory is in its canonical form, and the events are those of one step. Every other field is legal by its type
(sp is 0..15, a cell is 0 or 1). -/
def State.Inv (s : State) : Prop :=
  Memory.wf (unlistedByte s.font) s.mem = true ∧ eventsOrdered s.events = true

/-! ### Safe runs -/

/-- `k` steps from `s` all answer a next state: no step faults, none is refused. -/
def SafeRun (k : Nat) (s : State) : Prop := ∃ t, Host.Core.run Sys2Proof.core k s = .next t

/-! ### Frames: `t` holds what `s` held -/

/-- Every byte of memory reads as before. -/
def KeepsMemory (s t : State) : Prop := ∀ a, t.readByte a = s.readByte a
/-- Every V register but those in the list is as before. -/
def KeepsRegsBut (written : List RegIdx) (s t : State) : Prop := ∀ r, r ∉ written → t.reg r = s.reg r
/-- I is as before. -/
def KeepsIndex (s t : State) : Prop := t.i = s.i
/-- sp and every slot of the stack are as before. -/
def KeepsStack (s t : State) : Prop := t.sp = s.sp ∧ ∀ k, t.slot k = s.slot k
/-- DT and ST are as before. -/
def KeepsTimers (s t : State) : Prop := t.dt = s.dt ∧ t.st = s.st
/-- Every key is as before. -/
def KeepsKeys (s t : State) : Prop := ∀ k, t.keyDown k = s.keyDown k
/-- Every cell of the framebuffer and the redraw flag are as before. -/
def KeepsDisplay (s t : State) : Prop := (∀ x y, t.pixel x y = s.pixel x y) ∧ t.redraw = s.redraw

/-- The frame of an instruction that writes V registers and pc only: all of the spec's state but V and pc is as before. -/
def KeepsAllButRegs (s t : State) : Prop :=
  KeepsMemory s t ∧ KeepsIndex s t ∧ KeepsStack s t ∧ KeepsTimers s t ∧ KeepsKeys s t ∧ KeepsDisplay s t

/-- The frame of an instruction that writes pc only. -/
def KeepsAllButPc (s t : State) : Prop := KeepsRegsBut [] s t ∧ KeepsAllButRegs s t

/-! ### What the rules of decoding and drawing speak of -/

/-- Every word that has the fixed bits `bits` under `mask` decodes to the instruction its fields give (R50, R51). -/
def EncodedBy (mask bits : Word) (instr : Word → Instr) : Prop :=
  ∀ w : Word, w &&& mask = bits → decode w = .instr (instr w)

/-- Some set bit of the `n`-row sprite at I, drawn at (vx, vy), falls on cell (x, y) (R95). -/
def SpriteCovers (s : State) (vx vy : Byte) (n : Nat) (x : Fin 64) (y : Fin 32) : Prop :=
  ∃ row c : Nat, row < n ∧ c < 8 ∧ (s.readByte (s.i.toNat + row)).getLsbD (7 - c) = true ∧
    x.val = (vx.toNat + c) % 64 ∧ y.val = (vy.toNat + row) % 32

/-- Two states that agree on everything a program can observe: they differ at most in ST, the redraw flag and the
events of the last step (R23, R26, R27). -/
def SameToProgram (s t : State) : Prop :=
  t = { s with st := t.st, redraw := t.redraw, events := t.events }

/-- The registers an instruction may write: its destination, and VF where it sets a flag (R14, R15). -/
def regsWritten : Instr → List RegIdx
  | .cls | .ret | .jp _ | .call _ | .seImm _ _ | .sneImm _ _ | .seReg _ _ | .sneReg _ _ | .jpV0 _ => []
  | .ldI _ | .skp _ | .sknp _ | .ldDtVx _ | .ldStVx _ | .ldFont _ | .ldBcd _ | .storeRegs _ => []
  | .ldImm x _ | .addImm x _ | .rnd x _ | .ldVxDt x | .ldVxKey x => [x]
  | .ldReg x _ | .orReg x _ | .andReg x _ | .xorReg x _ => [x]
  | .addReg x _ | .subReg x _ | .shr x _ | .subn x _ | .shl x _ => [x, flagReg]
  | .drw _ _ _ | .addI _ => [flagReg]
  | .loadRegs x => (List.finRange 16).filter (fun k => decide (k ≤ x))

end Sys2Proof.Machine
end

