-- ==== Sys2Proof/Certificates/Slice0/Obligations.lean ====
section
/-! DEFINITION. The statements for the provers, each from a numbered rule of spec/. `nextPc` and `skipPc` are the helpers
`next` and `skip_if` of R60; what they do at the top of the 16 bits is the spec's decision D2 and stands in
NextAndSkipAdvance alone. The frames speak of the spec's state; what becomes of the model's own fields is
OnlyRndAdvancesTheDraws, EventsOfAStep and NoStepWritesTheKeypad. Where a clause rests on a decision the spec marks as its own (D1 to D38), the docstring names
it, with the log entry that records it. -/

open Sys2Proof Sys2Proof.Machine

/-! ### Decoding and encoding -/

/-- A few words of 30_encoding.md R51, R52 decode to the instructions they stand for (0x01E0 and 0x5121 by the strict
decode of D11, log 15). -/
def Obligations.SampleWordsDecode : Prop :=
  decode 0x00E0 = .instr .cls ∧ decode 0x2210 = .instr (.call 0x210) ∧ decode 0x3305 = .instr (.seImm 3 0x05) ∧
  decode 0x8126 = .instr (.shr 1 2) ∧ decode 0xA300 = .instr (.ldI 0x300) ∧ decode 0xDF1A = .instr (.drw 15 1 0xA) ∧
  decode 0xE2A1 = .instr (.sknp 2) ∧ decode 0xF355 = .instr (.storeRegs 3) ∧
  decode 0x0000 = .unknown 0x0000 ∧ decode 0x01E0 = .unknown 0x01E0 ∧ decode 0x5121 = .unknown 0x5121

/-- Every instruction, with every operand at every value of its field, is what the decoder reads from its encoding
(R45 to R51). -/
def Obligations.DecodeOfEncode : Prop := ∀ i : Instr, decode (encode i) = .instr i

/-- A word that decodes to an instruction is that instruction's encoding: decoding drops no bit (R45, R48). -/
def Obligations.EncodeOfDecode : Prop := ∀ (w : Word) (i : Instr), decode w = .instr i → encode i = w

/-- The two-stage decoder of R49 decides exactly by the map of R51 and the rule of R50: a word that a row matches decodes
to an instruction of that row, one that no row matches is unknown, and no word matches two rows. Strictness is the
spec's decision D11 (log 15). -/
def Obligations.DecodeFollowsTheMap : Prop :=
  ∀ w : Word,
    (∀ (n : Nat) (r : Row), opcodeTable[n]? = some r → r.covers w = true →
      ∃ i, decode w = .instr i ∧ i.rowNumber = n) ∧
    (WellFormed w = false → decode w = .unknown w) ∧
    (∀ (n m : Nat) (r q : Row), opcodeTable[n]? = some r → opcodeTable[m]? = some q →
      r.covers w = true → q.covers w = true → n = m)

/-- The unknown words, family by family (R52; D11, D12, log 15). -/
def Obligations.UnknownWordsByFamily : Prop :=
  ∀ w : Word, decode w = .unknown w ↔
    (opNibble w = 0x0 ∧ w ≠ 0x00E0 ∧ w ≠ 0x00EE) ∨
    (opNibble w = 0x5 ∧ fieldN w ≠ 0x0) ∨
    (opNibble w = 0x8 ∧ fieldN w ∈ ([0x8, 0x9, 0xA, 0xB, 0xC, 0xD, 0xF] : List Nibble)) ∨
    (opNibble w = 0x9 ∧ fieldN w ≠ 0x0) ∨
    (opNibble w = 0xE ∧ fieldNN w ∉ ([0x9E, 0xA1] : List Byte)) ∨
    (opNibble w = 0xF ∧ fieldNN w ∉ ([0x07, 0x0A, 0x15, 0x18, 0x1E, 0x29, 0x33, 0x55, 0x65] : List Byte))

/-! ### The step -/

/-- A step runs the decoded instruction (R58): when the word at pc decodes to `i`, the step is `exec i` on the state with
the events emptied, and then the tick; when it is unknown, the step is the unknown-word effect, and then the tick.
The events are the model's field `events` (log 4). -/
def Obligations.StepRunsTheDecodedInstruction : Prop :=
  ∀ s : State,
    (∀ i t, decode s.fetch = .instr i → exec i s.beginStep = .next t → step s = .next t.tick) ∧
    (∀ w, decode s.fetch = .unknown w → step s = .next (s.beginStep.unknownOpcode w).tick) ∧
    s.beginStep = { s with events := [] }

/-- Fetch (R57): the byte at pc is the high byte of the word, the byte at pc + 1 the low byte. -/
def Obligations.FetchIsBigEndian : Prop :=
  ∀ s : State, s.fetch.toNat = 256 * (s.readByte s.pc.toNat).toNat + (s.readByte (s.pc.toNat + 1)).toNat

/-- `next` and `skip_if` (R60), with the wrap mod 2^16 that is the spec's decision D2 (log 7). -/
def Obligations.NextAndSkipAdvance : Prop :=
  ∀ pc : Word, (nextPc pc).toNat = (pc.toNat + 2) % 65536 ∧ skipPc false pc = nextPc pc ∧
    (skipPc true pc).toNat = (pc.toNat + 4) % 65536

/-- An unknown word's step (R105): one Diag with the word and its address first among the events (log 4), pc on by 2, the
tick (D16, log 10), and nothing else. -/
def Obligations.UnknownWordStep : Prop :=
  ∀ (s : State) (w : Word), decode s.fetch = .unknown w →
    ∃ t, step s = .next t ∧ t.pc = nextPc s.pc ∧ t.dt.toNat = s.dt.toNat - 1 ∧ t.st.toNat = s.st.toNat - 1 ∧
      t.events = .diag w s.pc :: (if s.st = 1#8 then [.beep] else []) ∧
      t = { s with pc := t.pc, dt := t.dt, st := t.st, events := t.events }

/-- The tick (R110): each timer down by one unless it is 0, a Beep exactly when ST was 1, nothing else. -/
def Obligations.TickDecrementsBothTimers : Prop :=
  ∀ s : State, s.tick.dt.toNat = s.dt.toNat - 1 ∧ s.tick.st.toNat = s.st.toNat - 1 ∧
    s.tick.events = s.events ++ (if s.st = 1#8 then [.beep] else []) ∧
    s.tick = { s with dt := s.tick.dt, st := s.tick.st, events := s.tick.events }

/-- The countdown of the timers over `k` ticks (R110, R111): each falls by one a tick and stays at 0, and a sound timer at
n > 0 beeps exactly once, at the n-th tick. -/
def Obligations.SoundTimerBeepsOnce : Prop :=
  ∀ (k : Nat) (s : State),
    (State.tick^[k] s).st.toNat = s.st.toNat - k ∧ (State.tick^[k] s).dt.toNat = s.dt.toNat - k ∧
    (State.tick^[k] s).events = s.events ++ (if 0 < s.st.toNat ∧ s.st.toNat ≤ k then [.beep] else [])

/-- Every step of every state answers a next state, and so does every run of every length (R29, R63, R103). -/
def Obligations.EveryRunGoesOn : Prop :=
  (∀ s : State, ∃ t, step s = .next t) ∧ ∀ (k : Nat) (s : State), SafeRun k s

/-- The events of a step (R26, R107): a Diag exactly when the word at pc is unknown, with that word and its address, at
most one Beep, and the Diag first. -/
def Obligations.EventsOfAStep : Prop :=
  ∀ s t : State, step s = .next t →
    (∀ w a, .diag w a ∈ t.events ↔ decode s.fetch = .unknown w ∧ a = s.pc) ∧ eventsOrdered t.events = true

/-! ### Memory, reset, invariant -/

/-- The byte law (R33): a byte written reads back, and every other byte reads as before; addresses count mod 4096 (D1,
log 6); nothing but memory changes. -/
def Obligations.WriteThenRead : Prop :=
  ∀ (s : State) (a b : Nat) (x : Byte),
    (s.writeByte a x).readByte b = (if b % 4096 = a % 4096 then x else s.readByte b) ∧
    s.writeByte a x = { s with mem := (s.writeByte a x).mem }

/-- What `init` leaves (R28, R118), from any state: the parameter FONT at 0x000..0x04F and zeros above, pc = 0x200, redraw
true, everything else 0; I = 0 by D25 (log 19); and `State.reset` is such a state, for its own FONT (log 1). -/
def Obligations.InitLeavesTheResetValues : Prop :=
  (∀ s : State, let t := s.init
    (∀ a, t.readByte a = if h : a % 4096 < 80 then s.font[a % 4096] else 0x00) ∧
    (∀ r, t.reg r = 0x00) ∧ t.i = 0x0000 ∧ t.pc = 0x0200 ∧ t.sp = 0 ∧ (∀ k, t.slot k = 0x0000) ∧
    t.dt = 0 ∧ t.st = 0 ∧ (∀ k, t.keyDown k = false) ∧ (∀ x y, t.pixel x y = false) ∧ t.redraw = true ∧
    t.events = []) ∧
  State.reset.init = State.reset

/-- The invariant holds at reset. -/
def Obligations.ResetMeetsTheInvariant : Prop := State.reset.Inv

/-- Every step keeps the invariant, from every state that has it: memory stays in its canonical form, and the events are
those of one step. -/
def Obligations.StepKeepsTheInvariant : Prop := ∀ s t : State, s.Inv → step s = .next t → t.Inv

/-- Every operation of the host keeps the invariant (R114), and each of them answers. -/
def Obligations.HostCallsKeepTheInvariant : Prop :=
  ∀ (c : HostCall) (s : State), s.Inv → ∃ t r, hostCall c s = .next (t, r) ∧ t.Inv

/-! ### Control flow -/

/-- 00EE (R65): sp down by one mod 16 (D4, log 9), pc two past the address in the slot it then names, which is not
cleared (D30). -/
def Obligations.RetResult : Prop :=
  ∀ s : State, ∃ t, exec .ret s = .next t ∧ t.sp.val = (s.sp.val + 15) % 16 ∧ t.pc = nextPc (s.slot t.sp) ∧
    (∀ k, t.slot k = s.slot k) ∧ KeepsRegsBut [] s t ∧ KeepsMemory s t ∧ KeepsIndex s t ∧ KeepsTimers s t ∧
    KeepsKeys s t ∧ KeepsDisplay s t

/-- 1NNN (R66): pc is NNN, nothing else changes. -/
def Obligations.JpResult : Prop :=
  EncodedBy 0xF000 0x1000 (fun w => .jp (fieldNNN w)) ∧
  ∀ (nnn : Addr12) (s : State), ∃ t, exec (.jp nnn) s = .next t ∧ t.pc.toNat = nnn.toNat ∧ KeepsAllButPc s t

/-- 2NNN (R67): the address of the call goes into the next free slot, sp up by one mod 16 (D4, log 9), pc is NNN. -/
def Obligations.CallResult : Prop :=
  ∀ (nnn : Addr12) (s : State), ∃ t, exec (.call nnn) s = .next t ∧
    (∀ k, t.slot k = if k = s.sp then s.pc else s.slot k) ∧ t.sp.val = (s.sp.val + 1) % 16 ∧
    t.pc.toNat = nnn.toNat ∧ KeepsRegsBut [] s t ∧ KeepsMemory s t ∧ KeepsIndex s t ∧ KeepsTimers s t ∧
    KeepsKeys s t ∧ KeepsDisplay s t

/-- A return undoes a call (R65, R67), at every depth, the wrap of the stack included: it resumes two past the call, with
the stack pointer as it was. -/
def Obligations.RetAfterCallResumes : Prop :=
  ∀ (nnn : Addr12) (s t u : State), exec (.call nnn) s = .next t → u.sp = t.sp → (∀ k, u.slot k = t.slot k) →
    ∃ v, exec .ret u = .next v ∧ v.pc = nextPc s.pc ∧ v.sp = s.sp

/-- 3XNN and 4XNN (R68, R69): skip if VX equals, differs from, NN. -/
def Obligations.SkipImmediateResult : Prop :=
  EncodedBy 0xF000 0x3000 (fun w => .seImm (fieldX w) (fieldNN w)) ∧
  EncodedBy 0xF000 0x4000 (fun w => .sneImm (fieldX w) (fieldNN w)) ∧
  ∀ (x : RegIdx) (nn : Byte) (s : State),
    (∃ t, exec (.seImm x nn) s = .next t ∧ t.pc = skipPc (s.reg x == nn) s.pc ∧ KeepsAllButPc s t) ∧
    (∃ t, exec (.sneImm x nn) s = .next t ∧ t.pc = skipPc (s.reg x != nn) s.pc ∧ KeepsAllButPc s t)

/-- 5XY0 and 9XY0 (R70, R71): skip if VX equals, differs from, VY. -/
def Obligations.SkipRegisterResult : Prop :=
  EncodedBy 0xF00F 0x5000 (fun w => .seReg (fieldX w) (fieldY w)) ∧
  EncodedBy 0xF00F 0x9000 (fun w => .sneReg (fieldX w) (fieldY w)) ∧
  ∀ (x y : RegIdx) (s : State),
    (∃ t, exec (.seReg x y) s = .next t ∧ t.pc = skipPc (s.reg x == s.reg y) s.pc ∧ KeepsAllButPc s t) ∧
    (∃ t, exec (.sneReg x y) s = .next t ∧ t.pc = skipPc (s.reg x != s.reg y) s.pc ∧ KeepsAllButPc s t)

/-- BNNN (R72): pc is NNN + V0, always V0 (D33, log 18), and no sum wraps. -/
def Obligations.JpV0Result : Prop :=
  ∀ (nnn : Addr12) (s : State), ∃ t, exec (.jpV0 nnn) s = .next t ∧
    t.pc.toNat = nnn.toNat + (s.reg 0).toNat ∧ KeepsAllButPc s t

/-- A jump to itself (R63, R66): every later step leaves everything as it is but the timers and the events. -/
def Obligations.JumpToSelfStays : Prop :=
  ∀ (nnn : Addr12) (s : State), decode s.fetch = .instr (.jp nnn) → s.pc.toNat = nnn.toNat →
    ∀ k : Nat, ∃ t, Host.Core.run Sys2Proof.core k s = .next t ∧
      t = { s with dt := t.dt, st := t.st, events := t.events }

/-! ### Register loads and arithmetic -/

/-- 6XNN (R74): VX is NN. -/
def Obligations.LdImmResult : Prop :=
  EncodedBy 0xF000 0x6000 (fun w => .ldImm (fieldX w) (fieldNN w)) ∧
  ∀ (x : RegIdx) (nn : Byte) (s : State), ∃ t, exec (.ldImm x nn) s = .next t ∧ t.reg x = nn ∧
    KeepsRegsBut [x] s t ∧ t.pc = nextPc s.pc ∧ KeepsAllButRegs s t

/-- 7XNN (R75): VX is VX + NN mod 2^8; VF is no flag of it (D8, log 12). -/
def Obligations.AddImmResult : Prop :=
  ∀ (x : RegIdx) (nn : Byte) (s : State), ∃ t, exec (.addImm x nn) s = .next t ∧
    (t.reg x).toNat = ((s.reg x).toNat + nn.toNat) % 256 ∧ KeepsRegsBut [x] s t ∧ t.pc = nextPc s.pc ∧
    KeepsAllButRegs s t

/-- 8XY0 (R76): VX is VY. -/
def Obligations.LdRegResult : Prop :=
  EncodedBy 0xF00F 0x8000 (fun w => .ldReg (fieldX w) (fieldY w)) ∧
  ∀ (x y : RegIdx) (s : State), ∃ t, exec (.ldReg x y) s = .next t ∧ t.reg x = s.reg y ∧
    KeepsRegsBut [x] s t ∧ t.pc = nextPc s.pc ∧ KeepsAllButRegs s t

/-- 8XY1, 8XY2, 8XY3 (R77, R78, R79): bit by bit, and VF is no flag of them (D8, log 12). -/
def Obligations.LogicResult : Prop :=
  ∀ (x y : RegIdx) (s : State),
    (∃ t, exec (.orReg x y) s = .next t ∧
      (∀ b, b < 8 → (t.reg x).getLsbD b = ((s.reg x).getLsbD b || (s.reg y).getLsbD b)) ∧
      KeepsRegsBut [x] s t ∧ t.pc = nextPc s.pc ∧ KeepsAllButRegs s t) ∧
    (∃ t, exec (.andReg x y) s = .next t ∧
      (∀ b, b < 8 → (t.reg x).getLsbD b = ((s.reg x).getLsbD b && (s.reg y).getLsbD b)) ∧
      KeepsRegsBut [x] s t ∧ t.pc = nextPc s.pc ∧ KeepsAllButRegs s t) ∧
    (∃ t, exec (.xorReg x y) s = .next t ∧
      (∀ b, b < 8 → (t.reg x).getLsbD b = ((s.reg x).getLsbD b ^^ (s.reg y).getLsbD b)) ∧
      KeepsRegsBut [x] s t ∧ t.pc = nextPc s.pc ∧ KeepsAllButRegs s t)

/-- 8XY4 (R80): VX is VX + VY mod 2^8, VF the carry, written last, so that it stands when X = F (C3). -/
def Obligations.AddRegResult : Prop :=
  EncodedBy 0xF00F 0x8004 (fun w => .addReg (fieldX w) (fieldY w)) ∧
  ∀ (x y : RegIdx) (s : State), ∃ t, exec (.addReg x y) s = .next t ∧
    (t.reg flagReg).toNat = (if (s.reg x).toNat + (s.reg y).toNat > 0xFF then 1 else 0) ∧
    (x ≠ flagReg → (t.reg x).toNat = ((s.reg x).toNat + (s.reg y).toNat) % 256) ∧
    KeepsRegsBut [x, flagReg] s t ∧ t.pc = nextPc s.pc ∧ KeepsAllButRegs s t

/-- 8XY5 and 8XY7 (R81, R83): the difference mod 2^8, VF = 0 when the subtrahend is greater than the minuend, both as they
were before the write (C2), VF written last (C3). -/
def Obligations.SubtractResult : Prop :=
  EncodedBy 0xF00F 0x8005 (fun w => .subReg (fieldX w) (fieldY w)) ∧
  EncodedBy 0xF00F 0x8007 (fun w => .subn (fieldX w) (fieldY w)) ∧
  ∀ (x y : RegIdx) (s : State),
    (∃ t, exec (.subReg x y) s = .next t ∧
      (t.reg flagReg).toNat = (if (s.reg y).toNat > (s.reg x).toNat then 0 else 1) ∧
      (x ≠ flagReg → (t.reg x).toNat = ((s.reg x).toNat + 256 - (s.reg y).toNat) % 256) ∧
      KeepsRegsBut [x, flagReg] s t ∧ t.pc = nextPc s.pc ∧ KeepsAllButRegs s t) ∧
    (∃ t, exec (.subn x y) s = .next t ∧
      (t.reg flagReg).toNat = (if (s.reg x).toNat > (s.reg y).toNat then 0 else 1) ∧
      (x ≠ flagReg → (t.reg x).toNat = ((s.reg y).toNat + 256 - (s.reg x).toNat) % 256) ∧
      KeepsRegsBut [x, flagReg] s t ∧ t.pc = nextPc s.pc ∧ KeepsAllButRegs s t)

/-- 8XY6 and 8XYE (R82, R84): VX shifted by one in place, VF the bit shifted out, written last (D7, log 11), and VY neither
read nor written (D34, log 13). -/
def Obligations.ShiftResult : Prop :=
  ∀ (x y : RegIdx) (s : State),
    (∃ t, exec (.shr x y) s = .next t ∧ (t.reg flagReg).toNat = (s.reg x).toNat % 2 ∧
      (x ≠ flagReg → (t.reg x).toNat = (s.reg x).toNat / 2) ∧
      KeepsRegsBut [x, flagReg] s t ∧ t.pc = nextPc s.pc ∧ KeepsAllButRegs s t) ∧
    (∃ t, exec (.shl x y) s = .next t ∧ (t.reg flagReg).toNat = (s.reg x).toNat / 128 ∧
      (x ≠ flagReg → (t.reg x).toNat = (s.reg x).toNat * 2 % 256) ∧
      KeepsRegsBut [x, flagReg] s t ∧ t.pc = nextPc s.pc ∧ KeepsAllButRegs s t)

/-- CXNN (R85): VX is the free byte of this execution and NN, so that a bit where NN is 0 is 0; the next execution draws
another byte. The byte is the free value `Config.randByte` (log 2), whatever it is; the count is the model's (log 3). -/
def Obligations.RndResult : Prop :=
  ∀ (x : RegIdx) (nn : Byte) (s : State), ∃ t, exec (.rnd x nn) s = .next t ∧
    t.reg x = Config.randByte s.draws &&& nn ∧ (∀ b, nn.getLsbD b = false → (t.reg x).getLsbD b = false) ∧
    t.draws = s.draws + 1 ∧ KeepsRegsBut [x] s t ∧ t.pc = nextPc s.pc ∧ KeepsMemory s t ∧ KeepsIndex s t ∧
    KeepsStack s t ∧ KeepsTimers s t ∧ KeepsKeys s t ∧ KeepsDisplay s t

/-! ### Index register and memory transfer -/

/-- ANNN (R87): I is NNN. -/
def Obligations.LdIResult : Prop :=
  EncodedBy 0xF000 0xA000 (fun w => .ldI (fieldNNN w)) ∧
  ∀ (nnn : Addr12) (s : State), ∃ t, exec (.ldI nnn) s = .next t ∧ t.i.toNat = nnn.toNat ∧ t.pc = nextPc s.pc ∧
    KeepsRegsBut [] s t ∧ KeepsMemory s t ∧ KeepsStack s t ∧ KeepsTimers s t ∧ KeepsKeys s t ∧ KeepsDisplay s t

/-- FX1E (R88): I is I + VX mod 2^16 (D3, log 8), VF = 1 exactly when the exact sum exceeds 0xFFF (D28, log 14). -/
def Obligations.AddIResult : Prop :=
  ∀ (x : RegIdx) (s : State), ∃ t, exec (.addI x) s = .next t ∧
    t.i.toNat = (s.i.toNat + (s.reg x).toNat) % 65536 ∧
    (t.reg flagReg).toNat = (if s.i.toNat + (s.reg x).toNat > 0xFFF then 1 else 0) ∧
    KeepsRegsBut [flagReg] s t ∧ t.pc = nextPc s.pc ∧ KeepsMemory s t ∧ KeepsStack s t ∧ KeepsTimers s t ∧
    KeepsKeys s t ∧ KeepsDisplay s t

/-- FX29 (R89): I is VX * 5, VX in full (D32, log 20). -/
def Obligations.LdFontResult : Prop :=
  ∀ (x : RegIdx) (s : State), ∃ t, exec (.ldFont x) s = .next t ∧ t.i.toNat = (s.reg x).toNat * 5 ∧
    KeepsRegsBut [] s t ∧ t.pc = nextPc s.pc ∧ KeepsMemory s t ∧ KeepsStack s t ∧ KeepsTimers s t ∧
    KeepsKeys s t ∧ KeepsDisplay s t

/-- FX33 (R90): the three decimal digits of VX at I, I + 1, I + 2, addresses mod 4096 (D1, log 6); every other byte, and
everything but memory and pc, is as before. -/
def Obligations.LdBcdResult : Prop :=
  ∀ (x : RegIdx) (s : State), ∃ t, exec (.ldBcd x) s = .next t ∧
    (t.readByte s.i.toNat).toNat = (s.reg x).toNat / 100 ∧
    (t.readByte (s.i.toNat + 1)).toNat = (s.reg x).toNat / 10 % 10 ∧
    (t.readByte (s.i.toNat + 2)).toNat = (s.reg x).toNat % 10 ∧
    (∀ a, (∀ k, k < 3 → a % 4096 ≠ (s.i.toNat + k) % 4096) → t.readByte a = s.readByte a) ∧
    t.pc = nextPc s.pc ∧ KeepsRegsBut [] s t ∧ KeepsIndex s t ∧ KeepsStack s t ∧ KeepsTimers s t ∧
    KeepsKeys s t ∧ KeepsDisplay s t

/-- FX55 (R91): Vk at I + k for every k up to X, addresses mod 4096 (D1, log 6), every other byte as before, then I up by
X + 1 once, mod 2^16 (D3, log 8). -/
def Obligations.StoreRegsResult : Prop :=
  ∀ (x : RegIdx) (s : State), ∃ t, exec (.storeRegs x) s = .next t ∧
    (∀ k : RegIdx, k ≤ x → t.readByte (s.i.toNat + k.val) = s.reg k) ∧
    (∀ a, (∀ k : RegIdx, k ≤ x → a % 4096 ≠ (s.i.toNat + k.val) % 4096) → t.readByte a = s.readByte a) ∧
    t.i.toNat = (s.i.toNat + x.val + 1) % 65536 ∧ t.pc = nextPc s.pc ∧ KeepsRegsBut [] s t ∧ KeepsStack s t ∧
    KeepsTimers s t ∧ KeepsKeys s t ∧ KeepsDisplay s t

/-- FX65 (R92): Vk is the byte at I + k for every k up to X, addresses mod 4096 (D1, log 6), every other register as before,
then I up by X + 1 once, mod 2^16 (D3, log 8). -/
def Obligations.LoadRegsResult : Prop :=
  ∀ (x : RegIdx) (s : State), ∃ t, exec (.loadRegs x) s = .next t ∧
    (∀ k : RegIdx, t.reg k = if k ≤ x then s.readByte (s.i.toNat + k.val) else s.reg k) ∧
    t.i.toNat = (s.i.toNat + x.val + 1) % 65536 ∧ t.pc = nextPc s.pc ∧ KeepsMemory s t ∧ KeepsStack s t ∧
    KeepsTimers s t ∧ KeepsKeys s t ∧ KeepsDisplay s t

/-- FX55, then FX65 with the same starting I (R92; S7): V0..VX come back, whatever the registers held between, and each
instruction advances I once. -/
def Obligations.StoreThenLoadRestores : Prop :=
  ∀ (x : RegIdx) (s t u : State), exec (.storeRegs x) s = .next t → u.i = s.i → KeepsMemory t u →
    ∃ v, exec (.loadRegs x) u = .next v ∧ (∀ k : RegIdx, k ≤ x → v.reg k = s.reg k) ∧ v.i = t.i

/-- A store is fetched by the next step with no fence (R42): after FX55, the word at the address of a stored pair is that
pair, Vk high and V(k+1) low. -/
def Obligations.StoredBytesAreFetched : Prop :=
  ∀ (x j k : RegIdx) (s t : State) (p : Word), exec (.storeRegs x) s = .next t → k ≤ x → j.val + 1 = k.val →
    p.toNat % 4096 = (s.i.toNat + j.val) % 4096 → (t.setPc p).fetch = wordOfBytes (s.reg j) (s.reg k)

/-! ### Display -/

/-- 00E0 (R94): every cell 0, and redraw true whether or not a cell changed (C5, D10, log 16). -/
def Obligations.ClsResult : Prop :=
  ∀ s : State, ∃ t, exec .cls s = .next t ∧ (∀ x y, t.pixel x y = false) ∧ t.redraw = true ∧ t.pc = nextPc s.pc ∧
    KeepsRegsBut [] s t ∧ KeepsMemory s t ∧ KeepsIndex s t ∧ KeepsStack s t ∧ KeepsTimers s t ∧ KeepsKeys s t

/-- DXYN (R95): a cell is flipped exactly when a set bit of the sprite falls on it, coordinates wrapping mod 64 and mod 32;
VF = 1 exactly when such a cell was set, written last (D7, log 11); redraw true, N = 0 included (D9, D10, log 16); every
other register, and everything else, as before. -/
def Obligations.DrwResult : Prop :=
  ∀ (x y : RegIdx) (n : Nibble) (s : State), ∃ t, exec (.drw x y n) s = .next t ∧
    (∀ px py, (SpriteCovers s (s.reg x) (s.reg y) n.toNat px py → t.pixel px py = !s.pixel px py) ∧
      (¬ SpriteCovers s (s.reg x) (s.reg y) n.toNat px py → t.pixel px py = s.pixel px py)) ∧
    ((∃ px py, SpriteCovers s (s.reg x) (s.reg y) n.toNat px py ∧ s.pixel px py = true) → t.reg flagReg = 1) ∧
    ((¬ ∃ px py, SpriteCovers s (s.reg x) (s.reg y) n.toNat px py ∧ s.pixel px py = true) → t.reg flagReg = 0) ∧
    t.redraw = true ∧ KeepsRegsBut [flagReg] s t ∧ t.pc = nextPc s.pc ∧ KeepsMemory s t ∧ KeepsIndex s t ∧
    KeepsStack s t ∧ KeepsTimers s t ∧ KeepsKeys s t

/-- The same sprite drawn twice at the same place restores the framebuffer (R95; S6), and the second draw reports a
collision exactly when some covered cell was clear before the first. That condition on VF is the MODEL'S OWN READING of
R95, from its pseudocode, and not the rule's sentence on the second draw, which names no such condition (log 21, DEDUCED). -/
def Obligations.DrawTwiceRestores : Prop :=
  ∀ (x y : RegIdx) (n : Nibble) (s t u : State), exec (.drw x y n) s = .next t →
    (∀ px py, u.pixel px py = t.pixel px py) → KeepsMemory s u → u.i = s.i → u.reg x = s.reg x → u.reg y = s.reg y →
    ∃ v, exec (.drw x y n) u = .next v ∧ (∀ px py, v.pixel px py = s.pixel px py) ∧
      (v.reg flagReg = 1 ↔ ∃ px py, SpriteCovers s (s.reg x) (s.reg y) n.toNat px py ∧ s.pixel px py = false)

/-! ### Keypad and timers -/

/-- EX9E and EXA1 (R97, R98): skip if the key numbered VX mod 16 (D5, log 17) is down, up, as it stands at the step (D38). -/
def Obligations.SkipKeyResult : Prop :=
  ∀ (x : RegIdx) (s : State),
    (∃ t, exec (.skp x) s = .next t ∧ t.pc = skipPc (s.keyDown (Fin.ofNat 16 (s.reg x).toNat)) s.pc ∧
      KeepsAllButPc s t) ∧
    (∃ t, exec (.sknp x) s = .next t ∧ t.pc = skipPc (!s.keyDown (Fin.ofNat 16 (s.reg x).toNat)) s.pc ∧
      KeepsAllButPc s t)

/-- FX0A (R100): with no key down nothing at all changes, pc included; otherwise VX is the least key down (D6, log 17), pc on
by 2. -/
def Obligations.LdVxKeyResult : Prop :=
  ∀ (x : RegIdx) (s : State),
    ((∀ k, s.keyDown k = false) → exec (.ldVxKey x) s = .next s) ∧
    (∀ k : Fin 16, s.keyDown k = true → (∀ j, j < k → s.keyDown j = false) →
      ∃ t, exec (.ldVxKey x) s = .next t ∧ (t.reg x).toNat = k.val ∧ KeepsRegsBut [x] s t ∧ t.pc = nextPc s.pc ∧
        KeepsAllButRegs s t)

/-- FX07 (R99): VX is DT as it was before the tick, which then lowers DT. -/
def Obligations.LdVxDtResult : Prop :=
  ∀ (x : RegIdx) (s : State), ∃ t, exec (.ldVxDt x) s = .next t ∧ t.reg x = s.dt ∧ KeepsRegsBut [x] s t ∧
    t.pc = nextPc s.pc ∧ KeepsAllButRegs s t ∧ (0 < s.dt.toNat → (t.tick.reg x).toNat = t.tick.dt.toNat + 1)

/-- FX15 and FX18 (R101, R102): DT, ST is VX, and the same step's tick lowers the new value; a sound timer set to 1 beeps in
that tick. -/
def Obligations.SetTimersResult : Prop :=
  ∀ (x : RegIdx) (s : State),
    (∃ t, exec (.ldDtVx x) s = .next t ∧ t.dt = s.reg x ∧ t.st = s.st ∧ t.pc = nextPc s.pc ∧
      KeepsRegsBut [] s t ∧ KeepsMemory s t ∧ KeepsIndex s t ∧ KeepsStack s t ∧ KeepsKeys s t ∧ KeepsDisplay s t ∧ t.tick.dt.toNat = (s.reg x).toNat - 1) ∧
    (∃ t, exec (.ldStVx x) s = .next t ∧ t.st = s.reg x ∧ t.dt = s.dt ∧ t.pc = nextPc s.pc ∧
      KeepsRegsBut [] s t ∧ KeepsMemory s t ∧ KeepsIndex s t ∧ KeepsStack s t ∧ KeepsKeys s t ∧ KeepsDisplay s t ∧ t.tick.st.toNat = (s.reg x).toNat - 1 ∧
      t.tick.events = s.events ++ (if (s.reg x).toNat = 1 then [.beep] else []))

/-! ### Rules of the whole machine -/

/-- Only 00E0 and DXYN change the framebuffer or the redraw flag, and no instruction clears the flag (R22, R23). -/
def Obligations.OnlyClsAndDrwWriteTheScreen : Prop :=
  ∀ (i : Instr) (s t : State), exec i s = .next t →
    (i ≠ .cls → (∀ x y n, i ≠ .drw x y n) → KeepsDisplay s t) ∧ (s.redraw = true → t.redraw = true)

/-- Only FX33 and FX55 change a byte of memory (R25, R31). -/
def Obligations.OnlyBcdAndStoreWriteMemory : Prop :=
  ∀ (i : Instr) (s t : State), exec i s = .next t → (∀ x, i ≠ .ldBcd x) → (∀ x, i ≠ .storeRegs x) → KeepsMemory s t

/-- Only 2NNN and 00EE change sp or the stack (R18, R25). -/
def Obligations.OnlyCallAndRetTouchTheStack : Prop :=
  ∀ (i : Instr) (s t : State), exec i s = .next t → i ≠ .ret → (∀ nnn, i ≠ .call nnn) → KeepsStack s t

/-- Only ANNN, FX1E, FX29, FX55 and FX65 change I (R16), only FX15 changes DT and only FX18 ST before the tick (R25). -/
def Obligations.WritersOfIndexAndTimers : Prop :=
  ∀ (i : Instr) (s t : State), exec i s = .next t →
    ((∀ nnn, i ≠ .ldI nnn) → (∀ x, i ≠ .addI x ∧ i ≠ .ldFont x ∧ i ≠ .storeRegs x ∧ i ≠ .loadRegs x) →
      KeepsIndex s t) ∧
    ((∀ x, i ≠ .ldDtVx x) → t.dt = s.dt) ∧ ((∀ x, i ≠ .ldStVx x) → t.st = s.st)

/-- An instruction writes no V register but its destination, and VF only where it is that or where the instruction sets a
flag (R14, R15). -/
def Obligations.RegistersWrittenAreDestinations : Prop :=
  ∀ (i : Instr) (s t : State), exec i s = .next t → KeepsRegsBut (regsWritten i) s t

/-- The model's own fields, which are no state of the spec (log 1, log 3, log 4): no instruction writes FONT or the list of
events, and only CXNN advances the count of draws. -/
def Obligations.OnlyRndAdvancesTheDraws : Prop :=
  ∀ (i : Instr) (s t : State), exec i s = .next t →
    t.font = s.font ∧ t.events = s.events ∧ ((∀ x nn, i ≠ .rnd x nn) → t.draws = s.draws)

/-- No step changes the keypad (R21), nor the parameter FONT (R7, log 1). -/
def Obligations.NoStepWritesTheKeypad : Prop := ∀ s t : State, step s = .next t → KeepsKeys s t ∧ t.font = s.font

/-- A program cannot observe ST, the redraw flag or the events (R23, R26, R27): two states that differ at most in them step
to states that differ at most in them. -/
def Obligations.ProgramCannotObserveSoundOrRedraw : Prop :=
  ∀ s s' : State, SameToProgram s s' → ∃ t t', step s = .next t ∧ step s' = .next t' ∧ SameToProgram t t'

/-! ### The host's operations -/

/-- `load_program` (R119): an image over 3584 bytes fails and changes nothing; any other, empty or odd ones too (D36), is
found at 0x200 onward, and every other byte (D19) and every other element is as before. -/
def Obligations.LoadProgramResult : Prop :=
  ∀ (image : List Byte) (s : State),
    (image.length > 3584 → loadProgram image s = (.programTooLarge, s)) ∧
    (image.length ≤ 3584 → ∃ t, loadProgram image s = (.loaded, t) ∧
      (∀ (k : Nat) (h : k < image.length), t.readByte (0x200 + k) = image[k]) ∧
      (∀ a, a % 4096 < 0x200 ∨ 0x200 + image.length ≤ a % 4096 → t.readByte a = s.readByte a) ∧
      t = { s with mem := t.mem })

/-- The other operations of R114: `set_key` sets that key and nothing else, `clear_redraw_flag` clears that flag and
nothing else, `framebuffer` and `redraw_requested` read only, and cell (x, y) of the view is at y * 64 + x (D23). -/
def Obligations.HostAccessors : Prop :=
  ∀ s : State,
    (∀ n d, (∀ k, (setKey n d s).keyDown k = if k = n then d else s.keyDown k) ∧
      setKey n d s = { s with key := (setKey n d s).key }) ∧
    clearRedrawFlag s = { s with redraw := false } ∧ redrawRequested s = s.redraw ∧
    (∀ (x : Fin 64) (y : Fin 32) (h : y.val * 64 + x.val < 2048), (framebufferView s)[y.val * 64 + x.val] = s.pixel x y) ∧
    hostCall .framebuffer s = .next (s, .view (framebufferView s)) ∧
    hostCall .redrawRequested s = .next (s, .flag s.redraw)
end

