-- ==== Sys2Proof/Laws/Decode.lean ====
section
/-! SUPPORT. The fields of an encoded word, the word of its fields, and what a match under a mask says of the fields:
what the proofs about `decode` and `encode` cite. -/

namespace Sys2Proof

/-- The value of bits put side by side. -/
theorem toNat_append_eq {m n : Nat} (x : BitVec m) (y : BitVec n) : (x ++ y).toNat = x.toNat * 2 ^ n + y.toNat := by
  rw [BitVec.toNat_append, ← Nat.shiftLeft_add_eq_or_of_lt y.isLt, Nat.shiftLeft_eq]

/-! ### A field read back from a format -/

@[simp] theorem opNibble_formatFA (op : Nibble) (nnn : Addr12) : opNibble (formatFA op nnn) = op := by
  apply BitVec.eq_of_toNat_eq
  have h1 := op.isLt; have h2 := nnn.isLt
  simp only [opNibble, formatFA, BitVec.extractLsb'_toNat, toNat_append_eq, Nat.shiftRight_eq_div_pow]
  omega

@[simp] theorem fieldNNN_formatFA (op : Nibble) (nnn : Addr12) : fieldNNN (formatFA op nnn) = nnn := by
  apply BitVec.eq_of_toNat_eq
  have h1 := op.isLt; have h2 := nnn.isLt
  simp only [fieldNNN, formatFA, BitVec.extractLsb'_toNat, toNat_append_eq, Nat.shiftRight_eq_div_pow]
  omega

/-- A byte-format word is the address-format word of its low twelve bits. -/
theorem formatFR_eq (op : Nibble) (x : RegIdx) (nn : Byte) :
    formatFR op x nn = formatFA op (regNibble x ++ nn : BitVec 12) := rfl

theorem formatFRR_eq (op : Nibble) (x y : RegIdx) (n : Nibble) :
    formatFRR op x y n = formatFA op (regNibble x ++ (regNibble y ++ n : BitVec 8) : BitVec 12) := rfl

/-- X is the top nibble of NNN (R45: the fields overlap). -/
theorem nibbleX_eq (w : Word) : nibbleX w = (fieldNNN w).extractLsb' 8 4 := by
  apply BitVec.eq_of_toNat_eq
  simp only [nibbleX, fieldNNN, BitVec.extractLsb'_toNat, Nat.shiftRight_eq_div_pow]
  omega

/-- NN is the low byte of NNN. -/
theorem fieldNN_eq (w : Word) : fieldNN w = (fieldNNN w).extractLsb' 0 8 := by
  apply BitVec.eq_of_toNat_eq
  simp [fieldNN, fieldNNN]

/-- Y is the high nibble of NN. -/
theorem nibbleY_eq (w : Word) : nibbleY w = (fieldNN w).extractLsb' 4 4 := by
  apply BitVec.eq_of_toNat_eq
  simp only [nibbleY, fieldNN, BitVec.extractLsb'_toNat, Nat.shiftRight_eq_div_pow]
  omega

/-- N is the low nibble of NN. -/
theorem fieldN_eq (w : Word) : fieldN w = (fieldNN w).extractLsb' 0 4 := by
  apply BitVec.eq_of_toNat_eq
  simp [fieldN, fieldNN]

theorem extract_high_append (a : Nibble) (b : Byte) : (a ++ b : BitVec 12).extractLsb' 8 4 = a := by
  apply BitVec.eq_of_toNat_eq
  have h1 := a.isLt; have h2 := b.isLt
  simp only [BitVec.extractLsb'_toNat, toNat_append_eq, Nat.shiftRight_eq_div_pow]
  omega

theorem extract_low_append (a : Nibble) (b : Byte) : (a ++ b : BitVec 12).extractLsb' 0 8 = b := by
  apply BitVec.eq_of_toNat_eq
  have h1 := a.isLt; have h2 := b.isLt
  simp only [BitVec.extractLsb'_toNat, toNat_append_eq, Nat.shiftRight_eq_div_pow]
  omega

theorem extract_high_nibbles (a b : Nibble) : (a ++ b : BitVec 8).extractLsb' 4 4 = a := by
  revert a b; decide

theorem extract_low_nibbles (a b : Nibble) : (a ++ b : BitVec 8).extractLsb' 0 4 = b := by
  revert a b; decide

@[simp] theorem opNibble_formatFR (op : Nibble) (x : RegIdx) (nn : Byte) : opNibble (formatFR op x nn) = op := by
  rw [formatFR_eq, opNibble_formatFA]

@[simp] theorem nibbleX_formatFR (op : Nibble) (x : RegIdx) (nn : Byte) : nibbleX (formatFR op x nn) = regNibble x := by
  rw [formatFR_eq, nibbleX_eq, fieldNNN_formatFA, extract_high_append]

@[simp] theorem fieldX_formatFR (op : Nibble) (x : RegIdx) (nn : Byte) : fieldX (formatFR op x nn) = x := by
  rw [fieldX, nibbleX_formatFR]; rfl

@[simp] theorem fieldNN_formatFR (op : Nibble) (x : RegIdx) (nn : Byte) : fieldNN (formatFR op x nn) = nn := by
  rw [formatFR_eq, fieldNN_eq, fieldNNN_formatFA, extract_low_append]

/-- A two-register word is the byte-format word of its Y and N. -/
theorem formatFRR_eq_FR (op : Nibble) (x y : RegIdx) (n : Nibble) :
    formatFRR op x y n = formatFR op x (regNibble y ++ n : BitVec 8) := rfl

@[simp] theorem opNibble_formatFRR (op : Nibble) (x y : RegIdx) (n : Nibble) : opNibble (formatFRR op x y n) = op := by
  rw [formatFRR_eq_FR, opNibble_formatFR]

@[simp] theorem fieldX_formatFRR (op : Nibble) (x y : RegIdx) (n : Nibble) : fieldX (formatFRR op x y n) = x := by
  rw [formatFRR_eq_FR, fieldX_formatFR]

@[simp] theorem fieldY_formatFRR (op : Nibble) (x y : RegIdx) (n : Nibble) : fieldY (formatFRR op x y n) = y := by
  rw [formatFRR_eq_FR, fieldY, nibbleY_eq, fieldNN_formatFR, extract_high_nibbles]; rfl

@[simp] theorem fieldN_formatFRR (op : Nibble) (x y : RegIdx) (n : Nibble) : fieldN (formatFRR op x y n) = n := by
  rw [formatFRR_eq_FR, fieldN_eq, fieldNN_formatFR, extract_low_nibbles]

/-! ### A word is the format of its fields -/

theorem word_eq_formatFA (w : Word) : w = formatFA (opNibble w) (fieldNNN w) := by
  apply BitVec.eq_of_toNat_eq
  have h := w.isLt
  simp only [formatFA, opNibble, fieldNNN, toNat_append_eq, BitVec.extractLsb'_toNat, Nat.shiftRight_eq_div_pow]
  omega

theorem regNibble_fieldX (w : Word) : regNibble (fieldX w) = nibbleX w := rfl
theorem regNibble_fieldY (w : Word) : regNibble (fieldY w) = nibbleY w := rfl

theorem word_eq_formatFR (w : Word) : w = formatFR (opNibble w) (fieldX w) (fieldNN w) := by
  conv_lhs => rw [word_eq_formatFA w]
  rw [formatFR_eq, regNibble_fieldX]
  congr 1
  apply BitVec.eq_of_toNat_eq
  simp only [nibbleX, fieldNN, fieldNNN, toNat_append_eq, BitVec.extractLsb'_toNat, Nat.shiftRight_eq_div_pow]
  omega

theorem word_eq_formatFRR (w : Word) : w = formatFRR (opNibble w) (fieldX w) (fieldY w) (fieldN w) := by
  conv_lhs => rw [word_eq_formatFR w]
  rw [formatFRR_eq_FR, regNibble_fieldY]
  congr 1
  apply BitVec.eq_of_toNat_eq
  simp only [nibbleY, fieldN, fieldNN, toNat_append_eq, BitVec.extractLsb'_toNat, Nat.shiftRight_eq_div_pow]
  omega

/-! ### The first stage of the decoder, family by family (R49) -/

/-- A nibble is one of sixteen. -/
theorem nibble_cases (n : Nibble) : n = 0x0 ∨ n = 0x1 ∨ n = 0x2 ∨ n = 0x3 ∨ n = 0x4 ∨ n = 0x5 ∨ n = 0x6 ∨ n = 0x7 ∨
    n = 0x8 ∨ n = 0x9 ∨ n = 0xA ∨ n = 0xB ∨ n = 0xC ∨ n = 0xD ∨ n = 0xE ∨ n = 0xF := by
  revert n; decide

theorem decode_op0 {w : Word} (h : opNibble w = 0x0) : decode w = decodeFamily0 w := by simp [decode, h]
theorem decode_op1 {w : Word} (h : opNibble w = 0x1) : decode w = .instr (.jp (fieldNNN w)) := by simp [decode, h]
theorem decode_op2 {w : Word} (h : opNibble w = 0x2) : decode w = .instr (.call (fieldNNN w)) := by simp [decode, h]
theorem decode_op3 {w : Word} (h : opNibble w = 0x3) : decode w = .instr (.seImm (fieldX w) (fieldNN w)) := by simp [decode, h]
theorem decode_op4 {w : Word} (h : opNibble w = 0x4) : decode w = .instr (.sneImm (fieldX w) (fieldNN w)) := by simp [decode, h]
theorem decode_op5 {w : Word} (h : opNibble w = 0x5) : decode w = decodeFamily5 w := by simp [decode, h]
theorem decode_op6 {w : Word} (h : opNibble w = 0x6) : decode w = .instr (.ldImm (fieldX w) (fieldNN w)) := by simp [decode, h]
theorem decode_op7 {w : Word} (h : opNibble w = 0x7) : decode w = .instr (.addImm (fieldX w) (fieldNN w)) := by simp [decode, h]
theorem decode_op8 {w : Word} (h : opNibble w = 0x8) : decode w = decodeFamily8 w := by simp [decode, h]
theorem decode_op9 {w : Word} (h : opNibble w = 0x9) : decode w = decodeFamily9 w := by simp [decode, h]
theorem decode_opA {w : Word} (h : opNibble w = 0xA) : decode w = .instr (.ldI (fieldNNN w)) := by simp [decode, h]
theorem decode_opB {w : Word} (h : opNibble w = 0xB) : decode w = .instr (.jpV0 (fieldNNN w)) := by simp [decode, h]
theorem decode_opC {w : Word} (h : opNibble w = 0xC) : decode w = .instr (.rnd (fieldX w) (fieldNN w)) := by simp [decode, h]
theorem decode_opD {w : Word} (h : opNibble w = 0xD) : decode w = .instr (.drw (fieldX w) (fieldY w) (fieldN w)) := by simp [decode, h]
theorem decode_opE {w : Word} (h : opNibble w = 0xE) : decode w = decodeFamilyE w := by simp [decode, h]
theorem decode_opF {w : Word} (h : opNibble w = 0xF) : decode w = decodeFamilyF w := by simp [decode, h]

/-- What the decoder calls unknown it names by the word itself. -/
theorem decode_unknown {w w' : Word} (h : decode w = .unknown w') : w' = w := by
  have branch : ∀ (c : Prop) [Decidable c] (a b : Decoded), (a = .unknown w' → w' = w) → (b = .unknown w' → w' = w) →
      (if c then a else b) = .unknown w' → w' = w := by
    intro c _ a b ha hb h
    split at h
    · exact ha h
    · exact hb h
  revert h
  simp only [decode, decodeFamily0, decodeFamily5, decodeFamily8, decodeFamily9, decodeFamilyE, decodeFamilyF]
  repeat' first
    | (intro h; cases h; done)
    | exact fun h => by injection h with h; exact h.symm
    | refine branch _ _ _ ?_ ?_

/-! ### What a match under a mask says of the fields (R50) -/

/-- A field that a mask keeps whole equals the pattern's field. -/
theorem extract_of_mask {w mask bits : Word} (h : w &&& mask = bits) (start len : Nat)
    (hm : mask.extractLsb' start len = BitVec.allOnes len) : w.extractLsb' start len = bits.extractLsb' start len := by
  rw [← h, BitVec.extractLsb'_and, hm, BitVec.and_allOnes]

theorem opNibble_of_mask {w mask bits : Word} (h : w &&& mask = bits) (hm : opNibble mask = 15) :
    opNibble w = opNibble bits := extract_of_mask h 12 4 hm

theorem fieldN_of_mask {w mask bits : Word} (h : w &&& mask = bits) (hm : fieldN mask = 15) :
    fieldN w = fieldN bits := extract_of_mask h 0 4 hm

theorem fieldNN_of_mask {w mask bits : Word} (h : w &&& mask = bits) (hm : fieldNN mask = 255) :
    fieldNN w = fieldNN bits := extract_of_mask h 0 8 hm

/-- Two bytes put together and taken apart again (R36). -/
@[simp] theorem highByte_wordOfBytes (high low : Byte) : highByte (wordOfBytes high low) = high := by
  apply BitVec.eq_of_toNat_eq
  have h1 := high.isLt; have h2 := low.isLt
  simp only [highByte, wordOfBytes, BitVec.extractLsb'_toNat, toNat_append_eq, Nat.shiftRight_eq_div_pow]
  omega

@[simp] theorem lowByte_wordOfBytes (high low : Byte) : lowByte (wordOfBytes high low) = low := by
  apply BitVec.eq_of_toNat_eq
  have h1 := high.isLt; have h2 := low.isLt
  simp only [lowByte, wordOfBytes, BitVec.extractLsb'_toNat, toNat_append_eq, Nat.shiftRight_eq_div_pow]
  omega

@[simp] theorem wordOfBytes_bytes (w : Word) : wordOfBytes (highByte w) (lowByte w) = w := by
  apply BitVec.eq_of_toNat_eq
  have h := w.isLt
  simp only [wordOfBytes, highByte, lowByte, toNat_append_eq, BitVec.extractLsb'_toNat, Nat.shiftRight_eq_div_pow]
  omega

/-- The value of a word put together from its bytes (R57). -/
theorem toNat_wordOfBytes (high low : Byte) : (wordOfBytes high low).toNat = 256 * high.toNat + low.toNat := by
  rw [wordOfBytes, toNat_append_eq]
  omega

end Sys2Proof
end

