-- ==== Sys2Proof/Laws/State.lean ====
section
/-! SUPPORT. What each update of the state leaves in each field, and in each thing read from the state: true by
definition, so that no proof unfolds a record update. -/

namespace Sys2Proof.Machine

/-! ### State.writeByte -/

@[simp] theorem State.writeByte_v (s : State) (a : Nat) (x : Byte) : (s.writeByte a x).v = s.v := rfl
@[simp] theorem State.writeByte_i (s : State) (a : Nat) (x : Byte) : (s.writeByte a x).i = s.i := rfl
@[simp] theorem State.writeByte_pc (s : State) (a : Nat) (x : Byte) : (s.writeByte a x).pc = s.pc := rfl
@[simp] theorem State.writeByte_sp (s : State) (a : Nat) (x : Byte) : (s.writeByte a x).sp = s.sp := rfl
@[simp] theorem State.writeByte_stack (s : State) (a : Nat) (x : Byte) : (s.writeByte a x).stack = s.stack := rfl
@[simp] theorem State.writeByte_dt (s : State) (a : Nat) (x : Byte) : (s.writeByte a x).dt = s.dt := rfl
@[simp] theorem State.writeByte_st (s : State) (a : Nat) (x : Byte) : (s.writeByte a x).st = s.st := rfl
@[simp] theorem State.writeByte_key (s : State) (a : Nat) (x : Byte) : (s.writeByte a x).key = s.key := rfl
@[simp] theorem State.writeByte_fb (s : State) (a : Nat) (x : Byte) : (s.writeByte a x).fb = s.fb := rfl
@[simp] theorem State.writeByte_redraw (s : State) (a : Nat) (x : Byte) : (s.writeByte a x).redraw = s.redraw := rfl
@[simp] theorem State.writeByte_mem (s : State) (a : Nat) (x : Byte) : (s.writeByte a x).mem = Memory.write (unlistedByte s.font) s.mem (wrapAddr a) x := rfl
@[simp] theorem State.writeByte_font (s : State) (a : Nat) (x : Byte) : (s.writeByte a x).font = s.font := rfl
@[simp] theorem State.writeByte_draws (s : State) (a : Nat) (x : Byte) : (s.writeByte a x).draws = s.draws := rfl
@[simp] theorem State.writeByte_events (s : State) (a : Nat) (x : Byte) : (s.writeByte a x).events = s.events := rfl
@[simp] theorem State.writeByte_reg (s : State) (a : Nat) (x : Byte) (q : RegIdx) : (s.writeByte a x).reg q = s.reg q := rfl
@[simp] theorem State.writeByte_slot (s : State) (a : Nat) (x : Byte) (q : Fin 16) : (s.writeByte a x).slot q = s.slot q := rfl
@[simp] theorem State.writeByte_keyDown (s : State) (a : Nat) (x : Byte) (q : Fin 16) : (s.writeByte a x).keyDown q = s.keyDown q := rfl
@[simp] theorem State.writeByte_pixel (s : State) (a : Nat) (x : Byte) (px : Fin 64) (py : Fin 32) : (s.writeByte a x).pixel px py = s.pixel px py := rfl

/-! ### State.setReg -/

@[simp] theorem State.setReg_v (s : State) (x : RegIdx) (b : Byte) : (s.setReg x b).v = s.v.set x.val b := rfl
@[simp] theorem State.setReg_i (s : State) (x : RegIdx) (b : Byte) : (s.setReg x b).i = s.i := rfl
@[simp] theorem State.setReg_pc (s : State) (x : RegIdx) (b : Byte) : (s.setReg x b).pc = s.pc := rfl
@[simp] theorem State.setReg_sp (s : State) (x : RegIdx) (b : Byte) : (s.setReg x b).sp = s.sp := rfl
@[simp] theorem State.setReg_stack (s : State) (x : RegIdx) (b : Byte) : (s.setReg x b).stack = s.stack := rfl
@[simp] theorem State.setReg_dt (s : State) (x : RegIdx) (b : Byte) : (s.setReg x b).dt = s.dt := rfl
@[simp] theorem State.setReg_st (s : State) (x : RegIdx) (b : Byte) : (s.setReg x b).st = s.st := rfl
@[simp] theorem State.setReg_key (s : State) (x : RegIdx) (b : Byte) : (s.setReg x b).key = s.key := rfl
@[simp] theorem State.setReg_fb (s : State) (x : RegIdx) (b : Byte) : (s.setReg x b).fb = s.fb := rfl
@[simp] theorem State.setReg_redraw (s : State) (x : RegIdx) (b : Byte) : (s.setReg x b).redraw = s.redraw := rfl
@[simp] theorem State.setReg_mem (s : State) (x : RegIdx) (b : Byte) : (s.setReg x b).mem = s.mem := rfl
@[simp] theorem State.setReg_font (s : State) (x : RegIdx) (b : Byte) : (s.setReg x b).font = s.font := rfl
@[simp] theorem State.setReg_draws (s : State) (x : RegIdx) (b : Byte) : (s.setReg x b).draws = s.draws := rfl
@[simp] theorem State.setReg_events (s : State) (x : RegIdx) (b : Byte) : (s.setReg x b).events = s.events := rfl
@[simp] theorem State.setReg_slot (s : State) (x : RegIdx) (b : Byte) (q : Fin 16) : (s.setReg x b).slot q = s.slot q := rfl
@[simp] theorem State.setReg_keyDown (s : State) (x : RegIdx) (b : Byte) (q : Fin 16) : (s.setReg x b).keyDown q = s.keyDown q := rfl
@[simp] theorem State.setReg_pixel (s : State) (x : RegIdx) (b : Byte) (px : Fin 64) (py : Fin 32) : (s.setReg x b).pixel px py = s.pixel px py := rfl
@[simp] theorem State.setReg_readByte (s : State) (x : RegIdx) (b : Byte) (q : Nat) : (s.setReg x b).readByte q = s.readByte q := rfl

/-! ### State.setI -/

@[simp] theorem State.setI_v (s : State) (a : Word) : (s.setI a).v = s.v := rfl
@[simp] theorem State.setI_i (s : State) (a : Word) : (s.setI a).i = a := rfl
@[simp] theorem State.setI_pc (s : State) (a : Word) : (s.setI a).pc = s.pc := rfl
@[simp] theorem State.setI_sp (s : State) (a : Word) : (s.setI a).sp = s.sp := rfl
@[simp] theorem State.setI_stack (s : State) (a : Word) : (s.setI a).stack = s.stack := rfl
@[simp] theorem State.setI_dt (s : State) (a : Word) : (s.setI a).dt = s.dt := rfl
@[simp] theorem State.setI_st (s : State) (a : Word) : (s.setI a).st = s.st := rfl
@[simp] theorem State.setI_key (s : State) (a : Word) : (s.setI a).key = s.key := rfl
@[simp] theorem State.setI_fb (s : State) (a : Word) : (s.setI a).fb = s.fb := rfl
@[simp] theorem State.setI_redraw (s : State) (a : Word) : (s.setI a).redraw = s.redraw := rfl
@[simp] theorem State.setI_mem (s : State) (a : Word) : (s.setI a).mem = s.mem := rfl
@[simp] theorem State.setI_font (s : State) (a : Word) : (s.setI a).font = s.font := rfl
@[simp] theorem State.setI_draws (s : State) (a : Word) : (s.setI a).draws = s.draws := rfl
@[simp] theorem State.setI_events (s : State) (a : Word) : (s.setI a).events = s.events := rfl
@[simp] theorem State.setI_reg (s : State) (a : Word) (q : RegIdx) : (s.setI a).reg q = s.reg q := rfl
@[simp] theorem State.setI_slot (s : State) (a : Word) (q : Fin 16) : (s.setI a).slot q = s.slot q := rfl
@[simp] theorem State.setI_keyDown (s : State) (a : Word) (q : Fin 16) : (s.setI a).keyDown q = s.keyDown q := rfl
@[simp] theorem State.setI_pixel (s : State) (a : Word) (px : Fin 64) (py : Fin 32) : (s.setI a).pixel px py = s.pixel px py := rfl
@[simp] theorem State.setI_readByte (s : State) (a : Word) (q : Nat) : (s.setI a).readByte q = s.readByte q := rfl

/-! ### State.setPc -/

@[simp] theorem State.setPc_v (s : State) (a : Word) : (s.setPc a).v = s.v := rfl
@[simp] theorem State.setPc_i (s : State) (a : Word) : (s.setPc a).i = s.i := rfl
@[simp] theorem State.setPc_pc (s : State) (a : Word) : (s.setPc a).pc = a := rfl
@[simp] theorem State.setPc_sp (s : State) (a : Word) : (s.setPc a).sp = s.sp := rfl
@[simp] theorem State.setPc_stack (s : State) (a : Word) : (s.setPc a).stack = s.stack := rfl
@[simp] theorem State.setPc_dt (s : State) (a : Word) : (s.setPc a).dt = s.dt := rfl
@[simp] theorem State.setPc_st (s : State) (a : Word) : (s.setPc a).st = s.st := rfl
@[simp] theorem State.setPc_key (s : State) (a : Word) : (s.setPc a).key = s.key := rfl
@[simp] theorem State.setPc_fb (s : State) (a : Word) : (s.setPc a).fb = s.fb := rfl
@[simp] theorem State.setPc_redraw (s : State) (a : Word) : (s.setPc a).redraw = s.redraw := rfl
@[simp] theorem State.setPc_mem (s : State) (a : Word) : (s.setPc a).mem = s.mem := rfl
@[simp] theorem State.setPc_font (s : State) (a : Word) : (s.setPc a).font = s.font := rfl
@[simp] theorem State.setPc_draws (s : State) (a : Word) : (s.setPc a).draws = s.draws := rfl
@[simp] theorem State.setPc_events (s : State) (a : Word) : (s.setPc a).events = s.events := rfl
@[simp] theorem State.setPc_reg (s : State) (a : Word) (q : RegIdx) : (s.setPc a).reg q = s.reg q := rfl
@[simp] theorem State.setPc_slot (s : State) (a : Word) (q : Fin 16) : (s.setPc a).slot q = s.slot q := rfl
@[simp] theorem State.setPc_keyDown (s : State) (a : Word) (q : Fin 16) : (s.setPc a).keyDown q = s.keyDown q := rfl
@[simp] theorem State.setPc_pixel (s : State) (a : Word) (px : Fin 64) (py : Fin 32) : (s.setPc a).pixel px py = s.pixel px py := rfl
@[simp] theorem State.setPc_readByte (s : State) (a : Word) (q : Nat) : (s.setPc a).readByte q = s.readByte q := rfl

/-! ### State.push -/

@[simp] theorem State.push_v (s : State) (a : Word) : (s.push a).v = s.v := rfl
@[simp] theorem State.push_i (s : State) (a : Word) : (s.push a).i = s.i := rfl
@[simp] theorem State.push_pc (s : State) (a : Word) : (s.push a).pc = s.pc := rfl
@[simp] theorem State.push_sp (s : State) (a : Word) : (s.push a).sp = s.sp + 1 := rfl
@[simp] theorem State.push_stack (s : State) (a : Word) : (s.push a).stack = s.stack.set s.sp.val a := rfl
@[simp] theorem State.push_dt (s : State) (a : Word) : (s.push a).dt = s.dt := rfl
@[simp] theorem State.push_st (s : State) (a : Word) : (s.push a).st = s.st := rfl
@[simp] theorem State.push_key (s : State) (a : Word) : (s.push a).key = s.key := rfl
@[simp] theorem State.push_fb (s : State) (a : Word) : (s.push a).fb = s.fb := rfl
@[simp] theorem State.push_redraw (s : State) (a : Word) : (s.push a).redraw = s.redraw := rfl
@[simp] theorem State.push_mem (s : State) (a : Word) : (s.push a).mem = s.mem := rfl
@[simp] theorem State.push_font (s : State) (a : Word) : (s.push a).font = s.font := rfl
@[simp] theorem State.push_draws (s : State) (a : Word) : (s.push a).draws = s.draws := rfl
@[simp] theorem State.push_events (s : State) (a : Word) : (s.push a).events = s.events := rfl
@[simp] theorem State.push_reg (s : State) (a : Word) (q : RegIdx) : (s.push a).reg q = s.reg q := rfl
@[simp] theorem State.push_keyDown (s : State) (a : Word) (q : Fin 16) : (s.push a).keyDown q = s.keyDown q := rfl
@[simp] theorem State.push_pixel (s : State) (a : Word) (px : Fin 64) (py : Fin 32) : (s.push a).pixel px py = s.pixel px py := rfl
@[simp] theorem State.push_readByte (s : State) (a : Word) (q : Nat) : (s.push a).readByte q = s.readByte q := rfl

/-! ### State.popped -/

@[simp] theorem State.popped_v (s : State) : (s.popped).v = s.v := rfl
@[simp] theorem State.popped_i (s : State) : (s.popped).i = s.i := rfl
@[simp] theorem State.popped_pc (s : State) : (s.popped).pc = s.pc := rfl
@[simp] theorem State.popped_sp (s : State) : (s.popped).sp = s.sp - 1 := rfl
@[simp] theorem State.popped_stack (s : State) : (s.popped).stack = s.stack := rfl
@[simp] theorem State.popped_dt (s : State) : (s.popped).dt = s.dt := rfl
@[simp] theorem State.popped_st (s : State) : (s.popped).st = s.st := rfl
@[simp] theorem State.popped_key (s : State) : (s.popped).key = s.key := rfl
@[simp] theorem State.popped_fb (s : State) : (s.popped).fb = s.fb := rfl
@[simp] theorem State.popped_redraw (s : State) : (s.popped).redraw = s.redraw := rfl
@[simp] theorem State.popped_mem (s : State) : (s.popped).mem = s.mem := rfl
@[simp] theorem State.popped_font (s : State) : (s.popped).font = s.font := rfl
@[simp] theorem State.popped_draws (s : State) : (s.popped).draws = s.draws := rfl
@[simp] theorem State.popped_events (s : State) : (s.popped).events = s.events := rfl
@[simp] theorem State.popped_reg (s : State) (q : RegIdx) : (s.popped).reg q = s.reg q := rfl
@[simp] theorem State.popped_slot (s : State) (q : Fin 16) : (s.popped).slot q = s.slot q := rfl
@[simp] theorem State.popped_keyDown (s : State) (q : Fin 16) : (s.popped).keyDown q = s.keyDown q := rfl
@[simp] theorem State.popped_pixel (s : State) (px : Fin 64) (py : Fin 32) : (s.popped).pixel px py = s.pixel px py := rfl
@[simp] theorem State.popped_readByte (s : State) (q : Nat) : (s.popped).readByte q = s.readByte q := rfl

/-! ### State.present -/

@[simp] theorem State.present_v (s : State) (f : Framebuffer) : (s.present f).v = s.v := rfl
@[simp] theorem State.present_i (s : State) (f : Framebuffer) : (s.present f).i = s.i := rfl
@[simp] theorem State.present_pc (s : State) (f : Framebuffer) : (s.present f).pc = s.pc := rfl
@[simp] theorem State.present_sp (s : State) (f : Framebuffer) : (s.present f).sp = s.sp := rfl
@[simp] theorem State.present_stack (s : State) (f : Framebuffer) : (s.present f).stack = s.stack := rfl
@[simp] theorem State.present_dt (s : State) (f : Framebuffer) : (s.present f).dt = s.dt := rfl
@[simp] theorem State.present_st (s : State) (f : Framebuffer) : (s.present f).st = s.st := rfl
@[simp] theorem State.present_key (s : State) (f : Framebuffer) : (s.present f).key = s.key := rfl
@[simp] theorem State.present_fb (s : State) (f : Framebuffer) : (s.present f).fb = f := rfl
@[simp] theorem State.present_redraw (s : State) (f : Framebuffer) : (s.present f).redraw = true := rfl
@[simp] theorem State.present_mem (s : State) (f : Framebuffer) : (s.present f).mem = s.mem := rfl
@[simp] theorem State.present_font (s : State) (f : Framebuffer) : (s.present f).font = s.font := rfl
@[simp] theorem State.present_draws (s : State) (f : Framebuffer) : (s.present f).draws = s.draws := rfl
@[simp] theorem State.present_events (s : State) (f : Framebuffer) : (s.present f).events = s.events := rfl
@[simp] theorem State.present_reg (s : State) (f : Framebuffer) (q : RegIdx) : (s.present f).reg q = s.reg q := rfl
@[simp] theorem State.present_slot (s : State) (f : Framebuffer) (q : Fin 16) : (s.present f).slot q = s.slot q := rfl
@[simp] theorem State.present_keyDown (s : State) (f : Framebuffer) (q : Fin 16) : (s.present f).keyDown q = s.keyDown q := rfl
@[simp] theorem State.present_readByte (s : State) (f : Framebuffer) (q : Nat) : (s.present f).readByte q = s.readByte q := rfl

/-! ### State.setDt -/

@[simp] theorem State.setDt_v (s : State) (b : Byte) : (s.setDt b).v = s.v := rfl
@[simp] theorem State.setDt_i (s : State) (b : Byte) : (s.setDt b).i = s.i := rfl
@[simp] theorem State.setDt_pc (s : State) (b : Byte) : (s.setDt b).pc = s.pc := rfl
@[simp] theorem State.setDt_sp (s : State) (b : Byte) : (s.setDt b).sp = s.sp := rfl
@[simp] theorem State.setDt_stack (s : State) (b : Byte) : (s.setDt b).stack = s.stack := rfl
@[simp] theorem State.setDt_dt (s : State) (b : Byte) : (s.setDt b).dt = b := rfl
@[simp] theorem State.setDt_st (s : State) (b : Byte) : (s.setDt b).st = s.st := rfl
@[simp] theorem State.setDt_key (s : State) (b : Byte) : (s.setDt b).key = s.key := rfl
@[simp] theorem State.setDt_fb (s : State) (b : Byte) : (s.setDt b).fb = s.fb := rfl
@[simp] theorem State.setDt_redraw (s : State) (b : Byte) : (s.setDt b).redraw = s.redraw := rfl
@[simp] theorem State.setDt_mem (s : State) (b : Byte) : (s.setDt b).mem = s.mem := rfl
@[simp] theorem State.setDt_font (s : State) (b : Byte) : (s.setDt b).font = s.font := rfl
@[simp] theorem State.setDt_draws (s : State) (b : Byte) : (s.setDt b).draws = s.draws := rfl
@[simp] theorem State.setDt_events (s : State) (b : Byte) : (s.setDt b).events = s.events := rfl
@[simp] theorem State.setDt_reg (s : State) (b : Byte) (q : RegIdx) : (s.setDt b).reg q = s.reg q := rfl
@[simp] theorem State.setDt_slot (s : State) (b : Byte) (q : Fin 16) : (s.setDt b).slot q = s.slot q := rfl
@[simp] theorem State.setDt_keyDown (s : State) (b : Byte) (q : Fin 16) : (s.setDt b).keyDown q = s.keyDown q := rfl
@[simp] theorem State.setDt_pixel (s : State) (b : Byte) (px : Fin 64) (py : Fin 32) : (s.setDt b).pixel px py = s.pixel px py := rfl
@[simp] theorem State.setDt_readByte (s : State) (b : Byte) (q : Nat) : (s.setDt b).readByte q = s.readByte q := rfl

/-! ### State.setSt -/

@[simp] theorem State.setSt_v (s : State) (b : Byte) : (s.setSt b).v = s.v := rfl
@[simp] theorem State.setSt_i (s : State) (b : Byte) : (s.setSt b).i = s.i := rfl
@[simp] theorem State.setSt_pc (s : State) (b : Byte) : (s.setSt b).pc = s.pc := rfl
@[simp] theorem State.setSt_sp (s : State) (b : Byte) : (s.setSt b).sp = s.sp := rfl
@[simp] theorem State.setSt_stack (s : State) (b : Byte) : (s.setSt b).stack = s.stack := rfl
@[simp] theorem State.setSt_dt (s : State) (b : Byte) : (s.setSt b).dt = s.dt := rfl
@[simp] theorem State.setSt_st (s : State) (b : Byte) : (s.setSt b).st = b := rfl
@[simp] theorem State.setSt_key (s : State) (b : Byte) : (s.setSt b).key = s.key := rfl
@[simp] theorem State.setSt_fb (s : State) (b : Byte) : (s.setSt b).fb = s.fb := rfl
@[simp] theorem State.setSt_redraw (s : State) (b : Byte) : (s.setSt b).redraw = s.redraw := rfl
@[simp] theorem State.setSt_mem (s : State) (b : Byte) : (s.setSt b).mem = s.mem := rfl
@[simp] theorem State.setSt_font (s : State) (b : Byte) : (s.setSt b).font = s.font := rfl
@[simp] theorem State.setSt_draws (s : State) (b : Byte) : (s.setSt b).draws = s.draws := rfl
@[simp] theorem State.setSt_events (s : State) (b : Byte) : (s.setSt b).events = s.events := rfl
@[simp] theorem State.setSt_reg (s : State) (b : Byte) (q : RegIdx) : (s.setSt b).reg q = s.reg q := rfl
@[simp] theorem State.setSt_slot (s : State) (b : Byte) (q : Fin 16) : (s.setSt b).slot q = s.slot q := rfl
@[simp] theorem State.setSt_keyDown (s : State) (b : Byte) (q : Fin 16) : (s.setSt b).keyDown q = s.keyDown q := rfl
@[simp] theorem State.setSt_pixel (s : State) (b : Byte) (px : Fin 64) (py : Fin 32) : (s.setSt b).pixel px py = s.pixel px py := rfl
@[simp] theorem State.setSt_readByte (s : State) (b : Byte) (q : Nat) : (s.setSt b).readByte q = s.readByte q := rfl

/-! ### State.emit -/

@[simp] theorem State.emit_v (s : State) (e : Event) : (s.emit e).v = s.v := rfl
@[simp] theorem State.emit_i (s : State) (e : Event) : (s.emit e).i = s.i := rfl
@[simp] theorem State.emit_pc (s : State) (e : Event) : (s.emit e).pc = s.pc := rfl
@[simp] theorem State.emit_sp (s : State) (e : Event) : (s.emit e).sp = s.sp := rfl
@[simp] theorem State.emit_stack (s : State) (e : Event) : (s.emit e).stack = s.stack := rfl
@[simp] theorem State.emit_dt (s : State) (e : Event) : (s.emit e).dt = s.dt := rfl
@[simp] theorem State.emit_st (s : State) (e : Event) : (s.emit e).st = s.st := rfl
@[simp] theorem State.emit_key (s : State) (e : Event) : (s.emit e).key = s.key := rfl
@[simp] theorem State.emit_fb (s : State) (e : Event) : (s.emit e).fb = s.fb := rfl
@[simp] theorem State.emit_redraw (s : State) (e : Event) : (s.emit e).redraw = s.redraw := rfl
@[simp] theorem State.emit_mem (s : State) (e : Event) : (s.emit e).mem = s.mem := rfl
@[simp] theorem State.emit_font (s : State) (e : Event) : (s.emit e).font = s.font := rfl
@[simp] theorem State.emit_draws (s : State) (e : Event) : (s.emit e).draws = s.draws := rfl
@[simp] theorem State.emit_events (s : State) (e : Event) : (s.emit e).events = s.events ++ [e] := rfl
@[simp] theorem State.emit_reg (s : State) (e : Event) (q : RegIdx) : (s.emit e).reg q = s.reg q := rfl
@[simp] theorem State.emit_slot (s : State) (e : Event) (q : Fin 16) : (s.emit e).slot q = s.slot q := rfl
@[simp] theorem State.emit_keyDown (s : State) (e : Event) (q : Fin 16) : (s.emit e).keyDown q = s.keyDown q := rfl
@[simp] theorem State.emit_pixel (s : State) (e : Event) (px : Fin 64) (py : Fin 32) : (s.emit e).pixel px py = s.pixel px py := rfl
@[simp] theorem State.emit_readByte (s : State) (e : Event) (q : Nat) : (s.emit e).readByte q = s.readByte q := rfl

/-! ### State.advanceDraws -/

@[simp] theorem State.advanceDraws_v (s : State) : (s.advanceDraws).v = s.v := rfl
@[simp] theorem State.advanceDraws_i (s : State) : (s.advanceDraws).i = s.i := rfl
@[simp] theorem State.advanceDraws_pc (s : State) : (s.advanceDraws).pc = s.pc := rfl
@[simp] theorem State.advanceDraws_sp (s : State) : (s.advanceDraws).sp = s.sp := rfl
@[simp] theorem State.advanceDraws_stack (s : State) : (s.advanceDraws).stack = s.stack := rfl
@[simp] theorem State.advanceDraws_dt (s : State) : (s.advanceDraws).dt = s.dt := rfl
@[simp] theorem State.advanceDraws_st (s : State) : (s.advanceDraws).st = s.st := rfl
@[simp] theorem State.advanceDraws_key (s : State) : (s.advanceDraws).key = s.key := rfl
@[simp] theorem State.advanceDraws_fb (s : State) : (s.advanceDraws).fb = s.fb := rfl
@[simp] theorem State.advanceDraws_redraw (s : State) : (s.advanceDraws).redraw = s.redraw := rfl
@[simp] theorem State.advanceDraws_mem (s : State) : (s.advanceDraws).mem = s.mem := rfl
@[simp] theorem State.advanceDraws_font (s : State) : (s.advanceDraws).font = s.font := rfl
@[simp] theorem State.advanceDraws_draws (s : State) : (s.advanceDraws).draws = s.draws + 1 := rfl
@[simp] theorem State.advanceDraws_events (s : State) : (s.advanceDraws).events = s.events := rfl
@[simp] theorem State.advanceDraws_reg (s : State) (q : RegIdx) : (s.advanceDraws).reg q = s.reg q := rfl
@[simp] theorem State.advanceDraws_slot (s : State) (q : Fin 16) : (s.advanceDraws).slot q = s.slot q := rfl
@[simp] theorem State.advanceDraws_keyDown (s : State) (q : Fin 16) : (s.advanceDraws).keyDown q = s.keyDown q := rfl
@[simp] theorem State.advanceDraws_pixel (s : State) (px : Fin 64) (py : Fin 32) : (s.advanceDraws).pixel px py = s.pixel px py := rfl
@[simp] theorem State.advanceDraws_readByte (s : State) (q : Nat) : (s.advanceDraws).readByte q = s.readByte q := rfl

/-! ### State.beginStep -/

@[simp] theorem State.beginStep_v (s : State) : (s.beginStep).v = s.v := rfl
@[simp] theorem State.beginStep_i (s : State) : (s.beginStep).i = s.i := rfl
@[simp] theorem State.beginStep_pc (s : State) : (s.beginStep).pc = s.pc := rfl
@[simp] theorem State.beginStep_sp (s : State) : (s.beginStep).sp = s.sp := rfl
@[simp] theorem State.beginStep_stack (s : State) : (s.beginStep).stack = s.stack := rfl
@[simp] theorem State.beginStep_dt (s : State) : (s.beginStep).dt = s.dt := rfl
@[simp] theorem State.beginStep_st (s : State) : (s.beginStep).st = s.st := rfl
@[simp] theorem State.beginStep_key (s : State) : (s.beginStep).key = s.key := rfl
@[simp] theorem State.beginStep_fb (s : State) : (s.beginStep).fb = s.fb := rfl
@[simp] theorem State.beginStep_redraw (s : State) : (s.beginStep).redraw = s.redraw := rfl
@[simp] theorem State.beginStep_mem (s : State) : (s.beginStep).mem = s.mem := rfl
@[simp] theorem State.beginStep_font (s : State) : (s.beginStep).font = s.font := rfl
@[simp] theorem State.beginStep_draws (s : State) : (s.beginStep).draws = s.draws := rfl
@[simp] theorem State.beginStep_events (s : State) : (s.beginStep).events = [] := rfl
@[simp] theorem State.beginStep_reg (s : State) (q : RegIdx) : (s.beginStep).reg q = s.reg q := rfl
@[simp] theorem State.beginStep_slot (s : State) (q : Fin 16) : (s.beginStep).slot q = s.slot q := rfl
@[simp] theorem State.beginStep_keyDown (s : State) (q : Fin 16) : (s.beginStep).keyDown q = s.keyDown q := rfl
@[simp] theorem State.beginStep_pixel (s : State) (px : Fin 64) (py : Fin 32) : (s.beginStep).pixel px py = s.pixel px py := rfl
@[simp] theorem State.beginStep_readByte (s : State) (q : Nat) : (s.beginStep).readByte q = s.readByte q := rfl

/-! ### setKey -/

@[simp] theorem setKey_v (s : State) (n : Fin 16) (d : Bool) : (setKey n d s).v = s.v := rfl
@[simp] theorem setKey_i (s : State) (n : Fin 16) (d : Bool) : (setKey n d s).i = s.i := rfl
@[simp] theorem setKey_pc (s : State) (n : Fin 16) (d : Bool) : (setKey n d s).pc = s.pc := rfl
@[simp] theorem setKey_sp (s : State) (n : Fin 16) (d : Bool) : (setKey n d s).sp = s.sp := rfl
@[simp] theorem setKey_stack (s : State) (n : Fin 16) (d : Bool) : (setKey n d s).stack = s.stack := rfl
@[simp] theorem setKey_dt (s : State) (n : Fin 16) (d : Bool) : (setKey n d s).dt = s.dt := rfl
@[simp] theorem setKey_st (s : State) (n : Fin 16) (d : Bool) : (setKey n d s).st = s.st := rfl
@[simp] theorem setKey_key (s : State) (n : Fin 16) (d : Bool) : (setKey n d s).key = s.key.set n.val d := rfl
@[simp] theorem setKey_fb (s : State) (n : Fin 16) (d : Bool) : (setKey n d s).fb = s.fb := rfl
@[simp] theorem setKey_redraw (s : State) (n : Fin 16) (d : Bool) : (setKey n d s).redraw = s.redraw := rfl
@[simp] theorem setKey_mem (s : State) (n : Fin 16) (d : Bool) : (setKey n d s).mem = s.mem := rfl
@[simp] theorem setKey_font (s : State) (n : Fin 16) (d : Bool) : (setKey n d s).font = s.font := rfl
@[simp] theorem setKey_draws (s : State) (n : Fin 16) (d : Bool) : (setKey n d s).draws = s.draws := rfl
@[simp] theorem setKey_events (s : State) (n : Fin 16) (d : Bool) : (setKey n d s).events = s.events := rfl
@[simp] theorem setKey_reg (s : State) (n : Fin 16) (d : Bool) (q : RegIdx) : (setKey n d s).reg q = s.reg q := rfl
@[simp] theorem setKey_slot (s : State) (n : Fin 16) (d : Bool) (q : Fin 16) : (setKey n d s).slot q = s.slot q := rfl
@[simp] theorem setKey_pixel (s : State) (n : Fin 16) (d : Bool) (px : Fin 64) (py : Fin 32) : (setKey n d s).pixel px py = s.pixel px py := rfl
@[simp] theorem setKey_readByte (s : State) (n : Fin 16) (d : Bool) (q : Nat) : (setKey n d s).readByte q = s.readByte q := rfl

/-! ### clearRedrawFlag -/

@[simp] theorem clearRedrawFlag_v (s : State) : (clearRedrawFlag s).v = s.v := rfl
@[simp] theorem clearRedrawFlag_i (s : State) : (clearRedrawFlag s).i = s.i := rfl
@[simp] theorem clearRedrawFlag_pc (s : State) : (clearRedrawFlag s).pc = s.pc := rfl
@[simp] theorem clearRedrawFlag_sp (s : State) : (clearRedrawFlag s).sp = s.sp := rfl
@[simp] theorem clearRedrawFlag_stack (s : State) : (clearRedrawFlag s).stack = s.stack := rfl
@[simp] theorem clearRedrawFlag_dt (s : State) : (clearRedrawFlag s).dt = s.dt := rfl
@[simp] theorem clearRedrawFlag_st (s : State) : (clearRedrawFlag s).st = s.st := rfl
@[simp] theorem clearRedrawFlag_key (s : State) : (clearRedrawFlag s).key = s.key := rfl
@[simp] theorem clearRedrawFlag_fb (s : State) : (clearRedrawFlag s).fb = s.fb := rfl
@[simp] theorem clearRedrawFlag_redraw (s : State) : (clearRedrawFlag s).redraw = false := rfl
@[simp] theorem clearRedrawFlag_mem (s : State) : (clearRedrawFlag s).mem = s.mem := rfl
@[simp] theorem clearRedrawFlag_font (s : State) : (clearRedrawFlag s).font = s.font := rfl
@[simp] theorem clearRedrawFlag_draws (s : State) : (clearRedrawFlag s).draws = s.draws := rfl
@[simp] theorem clearRedrawFlag_events (s : State) : (clearRedrawFlag s).events = s.events := rfl
@[simp] theorem clearRedrawFlag_reg (s : State) (q : RegIdx) : (clearRedrawFlag s).reg q = s.reg q := rfl
@[simp] theorem clearRedrawFlag_slot (s : State) (q : Fin 16) : (clearRedrawFlag s).slot q = s.slot q := rfl
@[simp] theorem clearRedrawFlag_keyDown (s : State) (q : Fin 16) : (clearRedrawFlag s).keyDown q = s.keyDown q := rfl
@[simp] theorem clearRedrawFlag_pixel (s : State) (px : Fin 64) (py : Fin 32) : (clearRedrawFlag s).pixel px py = s.pixel px py := rfl
@[simp] theorem clearRedrawFlag_readByte (s : State) (q : Nat) : (clearRedrawFlag s).readByte q = s.readByte q := rfl

/-! ### Composite updates, in terms of the ones above -/

@[simp] theorem State.setFlag_eq (s : State) (b : Byte) : s.setFlag b = s.setReg flagReg b := rfl
@[simp] theorem State.next_eq (s : State) : s.next = s.setPc (nextPc s.pc) := rfl
@[simp] theorem State.skipIf_eq (s : State) (c : Bool) : s.skipIf c = s.setPc (skipPc c s.pc) := rfl
@[simp] theorem State.putReg_eq (s : State) (x : RegIdx) (b : Byte) :
    s.putReg x b = (s.setReg x b).setPc (nextPc s.pc) := rfl
@[simp] theorem State.putRegFlag_eq (s : State) (x : RegIdx) (b f : Byte) :
    s.putRegFlag x b f = ((s.setReg x b).setReg flagReg f).setPc (nextPc s.pc) := rfl
@[simp] theorem State.unknownOpcode_eq (s : State) (w : Word) :
    s.unknownOpcode w = (s.emit (.diag w s.pc)).setPc (nextPc s.pc) := rfl

/-! ### What a written place reads as -/

@[simp] theorem State.reg_setReg (s : State) (x r : RegIdx) (b : Byte) :
    (s.setReg x b).reg r = if r = x then b else s.reg r := by
  simp only [State.reg, State.setReg, Vector.get_eq_getElem, Vector.getElem_set, Fin.ext_iff, eq_comm]

@[simp] theorem State.slot_push (s : State) (a : Word) (k : Fin 16) :
    (s.push a).slot k = if k = s.sp then a else s.slot k := by
  simp only [State.slot, State.push, Vector.get_eq_getElem, Vector.getElem_set, Fin.ext_iff, eq_comm]

@[simp] theorem keyDown_setKey (s : State) (n k : Fin 16) (d : Bool) :
    (setKey n d s).keyDown k = if k = n then d else s.keyDown k := by
  simp only [State.keyDown, setKey, Vector.get_eq_getElem, Vector.getElem_set, Fin.ext_iff, eq_comm]

@[simp] theorem State.pixel_present (s : State) (f : Framebuffer) (x : Fin 64) (y : Fin 32) :
    (s.present f).pixel x y = Framebuffer.cell f x y := rfl

end Sys2Proof.Machine
end

