-- ==== Sys2Proof/Laws/Memory.lean ====
section
/-! SUPPORT. The laws of memory: a byte written reads back, every other byte reads as before, and every write keeps
the canonical form. -/

namespace Sys2Proof.Machine

/-- Reading passes over cells below the address read. -/
theorem Memory.read_dropWhile (u : Nat → Byte) (m : Memory) {a a' : Nat} (h : a < a') :
    Memory.read u (m.dropWhile (fun c => decide (c.1 ≤ a))) a' = Memory.read u m a' := by
  induction m with
  | nil => rfl
  | cons c m ih =>
    obtain ⟨b, x⟩ := c
    by_cases hb : b ≤ a
    · rw [List.dropWhile_cons_of_pos (by simpa using hb), ih]
      simp [Memory.read, show ¬ a' < b by omega, show a' ≠ b by omega]
    · rw [List.dropWhile_cons_of_neg (by simpa using hb)]

/-- A list whose cells all lie above an address has nothing there. -/
theorem Memory.read_dropWhile_le (u : Nat → Byte) (m : Memory) {a a' : Nat} (h : a' ≤ a) :
    Memory.read u (m.dropWhile (fun c => decide (c.1 ≤ a))) a' = u a' := by
  induction m with
  | nil => rfl
  | cons c m ih =>
    obtain ⟨b, x⟩ := c
    by_cases hb : b ≤ a
    · rw [List.dropWhile_cons_of_pos (by simpa using hb), ih]
    · rw [List.dropWhile_cons_of_neg (by simpa using hb)]
      simp [Memory.read, show a' < b by omega]

/-- The law of memory: a write reads back at its address and is unseen at every other, in any list whatever. -/
theorem Memory.read_write (u : Nat → Byte) (m : Memory) (a a' : Nat) (x : Byte) :
    Memory.read u (Memory.write u m a x) a' = if a' = a then x else Memory.read u m a' := by
  induction m with
  | nil =>
    by_cases hx : x = u a <;> by_cases ha : a' = a <;> simp [Memory.write, Memory.read, hx, ha]
  | cons c m ih =>
    obtain ⟨b, y⟩ := c
    rcases lt_trichotomy a b with h | h | h
    · by_cases hx : x = u a <;> by_cases ha : a' = a
      · simp [Memory.write, Memory.read, h, hx, ha]
      · simp [Memory.write, Memory.read, h, hx, ha]
      · simp [Memory.write, Memory.read, h, hx, ha]
      · simp only [Memory.write, h, hx, ha, if_true, if_false, Memory.read]
        by_cases hlt : a' < a
        · simp [hlt, show a' < b by omega]
        · simp [hlt]
    · subst h
      by_cases hx : x = u a <;> rcases lt_trichotomy a' a with ha | ha | ha
      · simp [Memory.write, hx, Memory.read_dropWhile_le u m ha.le, Memory.read, ha, ha.ne]
      · subst ha; simp [Memory.write, hx, Memory.read_dropWhile_le u m (le_refl a')]
      · simp [Memory.write, hx, Memory.read_dropWhile u m ha, Memory.read, ha.ne', ha.not_gt]
      · simp [Memory.write, hx, Memory.read, ha, ha.ne]
      · subst ha; simp [Memory.write, hx, Memory.read]
      · simp [Memory.write, hx, Memory.read, ha.ne', ha.not_gt]
    · simp only [Memory.write, h.not_gt, h.ne', if_false, Memory.read, ih]
      by_cases ha : a' = a
      · subst ha; simp [h.not_gt, h.ne']
      · simp [ha]

theorem Memory.dropWhile_of_wfFrom (u : Nat → Byte) {a low : Nat} {m : Memory} (h : a < low)
    (hm : Memory.wfFrom u low m = true) : m.dropWhile (fun c => decide (c.1 ≤ a)) = m := by
  cases m with
  | nil => rfl
  | cons c m =>
    obtain ⟨b, y⟩ := c
    simp only [Memory.wfFrom, Bool.and_eq_true, decide_eq_true_eq] at hm
    exact List.dropWhile_cons_of_neg (by simp only [decide_eq_true_eq]; omega)

theorem Memory.wfFrom_mono (u : Nat → Byte) {low low' : Nat} {m : Memory} (h : low' ≤ low)
    (hm : Memory.wfFrom u low m = true) : Memory.wfFrom u low' m = true := by
  cases m with
  | nil => rfl
  | cons c m =>
    obtain ⟨b, y⟩ := c
    simp only [Memory.wfFrom, Bool.and_eq_true, decide_eq_true_eq] at hm ⊢
    exact ⟨⟨⟨by omega, hm.1.1.2⟩, hm.1.2⟩, hm.2⟩

theorem Memory.wfFrom_write (u : Nat → Byte) {low : Nat} {m : Memory} {a : Nat} (x : Byte) (hl : low ≤ a)
    (ha : a < Config.memSize) (hm : Memory.wfFrom u low m = true) :
    Memory.wfFrom u low (Memory.write u m a x) = true := by
  induction m generalizing low with
  | nil => by_cases hx : x = u a <;> simp [Memory.write, Memory.wfFrom, hx, hl, ha]
  | cons c m ih =>
    obtain ⟨b, y⟩ := c
    have hc := hm
    simp only [Memory.wfFrom, Bool.and_eq_true, decide_eq_true_eq] at hc
    obtain ⟨⟨⟨h1, h2⟩, h3⟩, h4⟩ := hc
    rcases lt_trichotomy a b with h | h | h
    · by_cases hx : x = u a
      · simp only [Memory.write, h, hx, if_true]; exact hm
      · simp [Memory.write, h, hx, Memory.wfFrom, hl, ha, h2, h3, h4, show a + 1 ≤ b by omega]
    · subst h
      by_cases hx : x = u a
      · simp only [Memory.write, hx, lt_irrefl, if_true, if_false]
        rw [Memory.dropWhile_of_wfFrom u (Nat.lt_succ_self a) h4]
        exact Memory.wfFrom_mono u (by omega) h4
      · simp [Memory.write, hx, Memory.wfFrom, hl, ha, h4]
    · simp only [Memory.write, h.not_gt, h.ne', if_false, Memory.wfFrom, Bool.and_eq_true, decide_eq_true_eq]
      exact ⟨⟨⟨h1, h2⟩, h3⟩, ih (by omega) h4⟩

theorem wrapAddr_eq (a : Nat) : wrapAddr a = a % 4096 := rfl

theorem wrapAddr_lt (a : Nat) : wrapAddr a < Config.memSize := Nat.mod_lt _ (by decide)

/-- Every write keeps the canonical form. -/
theorem Memory.wf_write (u : Nat → Byte) {m : Memory} (a : Nat) (x : Byte) (hm : Memory.wf u m = true) :
    Memory.wf u (Memory.write u m (wrapAddr a) x) = true :=
  Memory.wfFrom_write u x (Nat.zero_le _) (wrapAddr_lt a) hm

/-- The empty list, reset's memory, is canonical. -/
theorem Memory.wf_nil (u : Nat → Byte) : Memory.wf u [] = true := rfl

theorem State.wf_writeByte (s : State) (a : Nat) (x : Byte) (h : Memory.wf (unlistedByte s.font) s.mem = true) :
    Memory.wf (unlistedByte (s.writeByte a x).font) (s.writeByte a x).mem = true :=
  Memory.wf_write _ a x h

/-- The byte law of a state: addresses count mod 4096. -/
theorem State.readByte_writeByte_wrap (s : State) (a b : Nat) (x : Byte) :
    (s.writeByte a x).readByte b = if wrapAddr b = wrapAddr a then x else s.readByte b := by
  simp only [State.readByte, State.writeByte, Memory.read_write]

@[simp] theorem State.readByte_writeByte (s : State) (a b : Nat) (x : Byte) :
    (s.writeByte a x).readByte b = if b % 4096 = a % 4096 then x else s.readByte b := s.readByte_writeByte_wrap a b x

/-- A read depends on the address mod 4096 only. -/
theorem State.readByte_congr (s : State) {a b : Nat} (h : a % 4096 = b % 4096) :
    s.readByte a = s.readByte b := by
  simp only [State.readByte, show wrapAddr a = wrapAddr b from h]

end Sys2Proof.Machine
end

