-- ==== Sys2Proof/Laws/Ops.lean ====
section
/-! SUPPORT. One lemma for each shared operation, that says everything it does: the proofs about instructions cite these
and do not unfold the operation. -/

namespace Sys2Proof.Machine

/-! ### Memory transfer -/

/-- A stored block of registers changes memory only. -/
theorem State.storeRegsUpTo_frame (i n : Nat) (s : State) :
    State.storeRegsUpTo i n s = { s with mem := (State.storeRegsUpTo i n s).mem } := by
  induction n with
  | zero => rfl
  | succ n ih => rw [State.storeRegsUpTo, ih]; rfl

theorem State.reg_storeRegsUpTo (i n : Nat) (s : State) (r : RegIdx) :
    (State.storeRegsUpTo i n s).reg r = s.reg r := by rw [State.storeRegsUpTo_frame]; rfl

/-- What memory reads as after a block of registers is stored: of several stored registers at one address the last,
which cannot happen for up to 4096 of them. -/
theorem State.readByte_storeRegsUpTo (i n : Nat) (hn : n ≤ 16) (s : State) :
    (∀ k : RegIdx, k.val < n → (State.storeRegsUpTo i n s).readByte (i + k.val) = s.reg k) ∧
    (∀ a, (∀ k, k < n → a % 4096 ≠ (i + k) % 4096) → (State.storeRegsUpTo i n s).readByte a = s.readByte a) := by
  induction n with
  | zero => exact ⟨fun k hk => absurd hk (Nat.not_lt_zero _), fun _ _ => rfl⟩
  | succ n ih =>
    obtain ⟨ih1, ih2⟩ := ih (by omega)
    simp only [State.storeRegsUpTo, State.readByte_writeByte, State.reg_storeRegsUpTo]
    refine ⟨fun k hk => ?_, fun a ha => ?_⟩
    · by_cases h : k.val = n
      · subst h; simp
      · rw [if_neg (by omega), ih1 k (by omega)]
    · rw [if_neg (ha n (by omega)), ih2 a (fun k hk => ha k (by omega))]

theorem State.wf_storeRegsUpTo (i n : Nat) (s : State) (h : Memory.wf (unlistedByte s.font) s.mem = true) :
    Memory.wf (unlistedByte s.font) (State.storeRegsUpTo i n s).mem = true := by
  induction n with
  | zero => exact h
  | succ n ih =>
    have hf : (State.storeRegsUpTo i n s).font = s.font := by rw [State.storeRegsUpTo_frame]
    simpa [State.storeRegsUpTo, hf] using Memory.wf_write (unlistedByte s.font) (i + n) _ ih

/-- A loaded block of registers changes the registers only. -/
theorem State.loadRegsUpTo_frame (i n : Nat) (s : State) :
    State.loadRegsUpTo i n s = { s with v := (State.loadRegsUpTo i n s).v } := by
  induction n with
  | zero => rfl
  | succ n ih => rw [State.loadRegsUpTo, ih]; rfl

theorem State.readByte_loadRegsUpTo (i n : Nat) (s : State) (a : Nat) :
    (State.loadRegsUpTo i n s).readByte a = s.readByte a := by rw [State.loadRegsUpTo_frame]; rfl

/-- What each register holds after a block is loaded. -/
theorem State.reg_loadRegsUpTo (i n : Nat) (hn : n ≤ 16) (s : State) (r : RegIdx) :
    (State.loadRegsUpTo i n s).reg r = if r.val < n then s.readByte (i + r.val) else s.reg r := by
  induction n with
  | zero => simp [State.loadRegsUpTo]
  | succ n ih =>
    have hv : (Fin.ofNat 16 n).val = n := Nat.mod_eq_of_lt (by omega)
    simp only [State.loadRegsUpTo, State.reg_setReg, State.readByte_loadRegsUpTo, ih (by omega), Fin.ext_iff, hv]
    by_cases h : r.val = n
    · simp [h]
    · simp [h, show (r.val < n + 1) = (r.val < n) by rw [eq_iff_iff]; omega]

/-- Bytes written one after another change memory only. -/
theorem State.writeBytes_frame (a : Nat) (xs : List Byte) (s : State) :
    State.writeBytes a xs s = { s with mem := (State.writeBytes a xs s).mem } := by
  induction xs generalizing a s with
  | nil => rfl
  | cons x xs ih => rw [State.writeBytes, ih]; rfl

/-- What memory reads as after bytes are written at `a` and on, as long as they do not lap the space. -/
theorem State.readByte_writeBytes (a : Nat) (xs : List Byte) (s : State) (hlen : xs.length ≤ 4096) (b : Nat) :
    (∀ (k : Nat) (h : k < xs.length), b % 4096 = (a + k) % 4096 → (State.writeBytes a xs s).readByte b = xs[k]) ∧
    ((∀ k, k < xs.length → b % 4096 ≠ (a + k) % 4096) → (State.writeBytes a xs s).readByte b = s.readByte b) := by
  induction xs generalizing a s with
  | nil => exact ⟨fun k h => absurd h (Nat.not_lt_zero _), fun _ => rfl⟩
  | cons x xs ih =>
    simp only [List.length_cons] at hlen ⊢
    obtain ⟨ih1, ih2⟩ := ih (a + 1) (s.writeByte a x) (by omega)
    refine ⟨fun k h hb => ?_, fun hb => ?_⟩
    · cases k with
      | zero =>
        rw [State.writeBytes, ih2 (fun j hj => by omega), State.readByte_writeByte]
        simp [hb]
      | succ k => exact ih1 k (by omega) (by rw [hb]; congr 1; omega)
    · rw [State.writeBytes, ih2 (fun k hk => by have := hb (k + 1) (by omega); rwa [Nat.add_right_comm, Nat.add_assoc] ),
        State.readByte_writeByte, if_neg (by simpa using hb 0 (by omega))]

theorem State.wf_writeBytes (a : Nat) (xs : List Byte) (s : State)
    (h : Memory.wf (unlistedByte s.font) s.mem = true) :
    Memory.wf (unlistedByte s.font) (State.writeBytes a xs s).mem = true := by
  induction xs generalizing a s with
  | nil => exact h
  | cons x xs ih => exact ih (a + 1) (s.writeByte a x) (s.wf_writeByte a x h)

/-! ### Drawing -/

theorem Framebuffer.cell_flip (f : Framebuffer) (x x' : Fin 64) (y y' : Fin 32) :
    Framebuffer.cell (Framebuffer.flip f x y) x' y' =
      if x' = x ∧ y' = y then !Framebuffer.cell f x y else Framebuffer.cell f x' y' := by
  by_cases hy : y' = y
  · subst hy
    by_cases hx : x' = x
    · subst hx; simp [Framebuffer.cell, Framebuffer.flip, Vector.get_eq_getElem]
    · have : ¬ (x.val = x'.val) := fun h => hx (Fin.ext h.symm)
      simp [Framebuffer.cell, Framebuffer.flip, Vector.get_eq_getElem, hx, this]
  · have : ¬ (y.val = y'.val) := fun h => hy (Fin.ext h.symm)
    simp [Framebuffer.cell, Framebuffer.flip, Vector.get_eq_getElem, hy, this]

@[simp] theorem Framebuffer.cell_blank (x : Fin 64) (y : Fin 32) : Framebuffer.cell Framebuffer.blank x y = false := by
  simp [Framebuffer.cell, Framebuffer.blank]

/-- A cell that the first `n` pixels of a row cover. -/
def RowCovers (row vx : Byte) (n : Nat) (x : Fin 64) : Prop :=
  ∃ c, c < n ∧ row.getLsbD (7 - c) = true ∧ x.val = (vx.toNat + c) % 64

/-- What a sprite row does: it flips exactly the cells its set bits cover, and collides exactly where one was set. -/
theorem Canvas.drawRow_spec (row vx : Byte) (y : Fin 32) (n : Nat) (hn : n ≤ 8) (c : Canvas) :
    (∀ px py, (py = y ∧ RowCovers row vx n px →
        Framebuffer.cell (Canvas.drawRow row vx y n c).fb px py = !Framebuffer.cell c.fb px py) ∧
      (¬ (py = y ∧ RowCovers row vx n px) →
        Framebuffer.cell (Canvas.drawRow row vx y n c).fb px py = Framebuffer.cell c.fb px py)) ∧
    ((Canvas.drawRow row vx y n c).collided = true ↔
      c.collided = true ∨ ∃ px, RowCovers row vx n px ∧ Framebuffer.cell c.fb px y = true) := by
  induction n with
  | zero => simp [Canvas.drawRow, RowCovers]
  | succ n ih =>
    obtain ⟨ih1, ih2⟩ := ih (by omega)
    have hfresh : ¬ RowCovers row vx n (spriteCol vx n) := by
      rintro ⟨c, hc, -, h⟩
      have : (vx.toNat + n) % 64 = (vx.toNat + c) % 64 := h
      omega
    have hcov : ∀ px, RowCovers row vx (n + 1) px ↔
        RowCovers row vx n px ∨ (row.getLsbD (7 - n) = true ∧ px = spriteCol vx n) := by
      intro px
      constructor
      · rintro ⟨c, hc, hb, h⟩
        by_cases hcn : c = n
        · subst hcn; exact .inr ⟨hb, Fin.ext h⟩
        · exact .inl ⟨c, by omega, hb, h⟩
      · rintro (⟨c, hc, hb, h⟩ | ⟨hb, h⟩)
        · exact ⟨c, by omega, hb, h⟩
        · exact ⟨n, by omega, hb, congrArg Fin.val h⟩
    by_cases hb : row.getLsbD (7 - n) = true
    · simp only [Canvas.drawRow, hb, if_true, Canvas.flip, Framebuffer.cell_flip, hcov, true_and]
      refine ⟨fun px py => ?_, ?_⟩
      · by_cases hxy : px = spriteCol vx n ∧ py = y
        · obtain ⟨rfl, rfl⟩ := hxy
          have := (ih1 (spriteCol vx n) py).2 (fun h => hfresh h.2)
          simp [this]
        · rw [if_neg hxy]
          constructor
          · rintro ⟨rfl, h | h⟩
            · exact (ih1 px py).1 ⟨rfl, h⟩
            · exact absurd ⟨h, rfl⟩ hxy
          · intro h
            exact (ih1 px py).2 (fun h' => h ⟨h'.1, .inl h'.2⟩)
      · have hcell := (ih1 (spriteCol vx n) y).2 (fun h => hfresh h.2)
        simp only [Bool.or_eq_true, ih2, hcell]
        constructor
        · rintro ((h | ⟨px, h, h'⟩) | h)
          · exact .inl h
          · exact .inr ⟨px, .inl h, h'⟩
          · exact .inr ⟨_, .inr rfl, h⟩
        · rintro (h | ⟨px, h | h, h'⟩)
          · exact .inl (.inl h)
          · exact .inl (.inr ⟨px, h, h'⟩)
          · exact .inr (h ▸ h')
    · have hcov' : ∀ px, RowCovers row vx (n + 1) px ↔ RowCovers row vx n px := fun px => by
        rw [hcov]; simp [hb]
      simp only [Canvas.drawRow, hb, hcov']
      exact ⟨ih1, ih2⟩

/-- A cell that the first `n` rows of a sprite cover. -/
def RowsCover (rows : Nat → Byte) (vx vy : Byte) (n : Nat) (x : Fin 64) (y : Fin 32) : Prop :=
  ∃ r, r < n ∧ y = spriteRow vy r ∧ RowCovers (rows r) vx 8 x

/-- What a sprite of up to 32 rows does: it flips exactly the cells it covers, and collides exactly where one was set. -/
theorem Canvas.drawRows_spec (rows : Nat → Byte) (vx vy : Byte) (n : Nat) (hn : n ≤ 32) (c : Canvas) :
    (∀ px py, (RowsCover rows vx vy n px py →
        Framebuffer.cell (Canvas.drawRows rows vx vy n c).fb px py = !Framebuffer.cell c.fb px py) ∧
      (¬ RowsCover rows vx vy n px py →
        Framebuffer.cell (Canvas.drawRows rows vx vy n c).fb px py = Framebuffer.cell c.fb px py)) ∧
    ((Canvas.drawRows rows vx vy n c).collided = true ↔
      c.collided = true ∨ ∃ px py, RowsCover rows vx vy n px py ∧ Framebuffer.cell c.fb px py = true) := by
  induction n with
  | zero => simp [Canvas.drawRows, RowsCover]
  | succ n ih =>
    obtain ⟨ih1, ih2⟩ := ih (by omega)
    obtain ⟨r1, r2⟩ := Canvas.drawRow_spec (rows n) vx (spriteRow vy n) 8 (le_refl 8) (Canvas.drawRows rows vx vy n c)
    have hfresh : ∀ px, ¬ RowsCover rows vx vy n px (spriteRow vy n) := by
      rintro px ⟨r, hr, h, -⟩
      have : (vy.toNat + n) % 32 = (vy.toNat + r) % 32 := congrArg Fin.val h
      omega
    have hcov : ∀ px py, RowsCover rows vx vy (n + 1) px py ↔
        RowsCover rows vx vy n px py ∨ (py = spriteRow vy n ∧ RowCovers (rows n) vx 8 px) := by
      intro px py
      constructor
      · rintro ⟨r, hr, hy, h⟩
        by_cases hrn : r = n
        · subst hrn; exact .inr ⟨hy, h⟩
        · exact .inl ⟨r, by omega, hy, h⟩
      · rintro (⟨r, hr, h⟩ | h)
        · exact ⟨r, by omega, h⟩
        · exact ⟨n, by omega, h⟩
    simp only [Canvas.drawRows, hcov]
    refine ⟨fun px py => ?_, ?_⟩
    · by_cases hn' : py = spriteRow vy n ∧ RowCovers (rows n) vx 8 px
      · have h0 : ¬ RowsCover rows vx vy n px py := by rw [hn'.1]; exact hfresh px
        rw [(r1 px py).1 hn', (ih1 px py).2 h0]
        exact ⟨fun _ => rfl, fun h => absurd (.inr hn') h⟩
      · rw [(r1 px py).2 hn']
        exact ⟨fun h => (ih1 px py).1 (h.resolve_right hn'), fun h => (ih1 px py).2 (fun h' => h (.inl h'))⟩
    · rw [r2, ih2, or_assoc]
      refine or_congr_right ⟨?_, ?_⟩
      · rintro (⟨px, py, h, h'⟩ | ⟨px, h, h'⟩)
        · exact ⟨px, py, .inl h, h'⟩
        · rw [(ih1 px _).2 (hfresh px)] at h'
          exact ⟨px, _, .inr ⟨rfl, h⟩, h'⟩
      · rintro ⟨px, py, h | ⟨rfl, h⟩, h'⟩
        · exact .inl ⟨px, py, h, h'⟩
        · exact .inr ⟨px, h, by rw [(ih1 px _).2 (hfresh px)]; exact h'⟩

/-- The cells that DXYN's sprite covers, as the claims speak of them. -/
theorem rowsCover_iff (s : State) (vx vy : Byte) (n : Nat) (px : Fin 64) (py : Fin 32) :
    RowsCover (fun r => s.readByte (s.i.toNat + r)) vx vy n px py ↔ SpriteCovers s vx vy n px py := by
  constructor
  · rintro ⟨r, hr, hy, c, hc, hb, hx⟩
    exact ⟨r, c, hr, hc, hb, hx, congrArg Fin.val hy⟩
  · rintro ⟨r, c, hr, hc, hb, hx, hy⟩
    exact ⟨r, hr, Fin.ext hy, c, hc, hb, hx⟩

/-! ### Timers, reset, step -/

/-- The delay timer's tick in one equation. -/
theorem State.tickDelay_eq (s : State) : s.tickDelay = { s with dt := if s.dt = 0#8 then s.dt else s.dt - 1#8 } := by
  unfold State.tickDelay
  by_cases h : s.dt = 0#8
  · rw [if_pos h, if_pos h]
  · rw [if_neg h, if_neg h]; rfl

/-- The sound timer's tick in one equation. -/
theorem State.tickSound_eq (s : State) : s.tickSound = { s with
    st := if s.st = 0#8 then s.st else s.st - 1#8
    events := s.events ++ (if s.st = 1#8 then [.beep] else []) } := by
  unfold State.tickSound
  by_cases h : s.st = 0#8
  · rw [if_pos h, if_pos h, if_neg (by rw [h]; decide), List.append_nil]
  · rw [if_neg h, if_neg h]
    by_cases h1 : s.st = 1#8
    · rw [if_pos h1, if_pos h1]; rfl
    · rw [if_neg h1, if_neg h1, List.append_nil]; rfl

/-- The tick in one equation (R110). -/
theorem State.tick_eq (s : State) : s.tick = { s with
    dt := if s.dt = 0#8 then s.dt else s.dt - 1#8
    st := if s.st = 0#8 then s.st else s.st - 1#8
    events := s.events ++ (if s.st = 1#8 then [.beep] else []) } := by
  rw [State.tick, State.tickSound_eq, State.tickDelay_eq]

/-- A timer's tick as a number: down by one, not below zero. -/
theorem timer_down (b : Byte) : (if b = 0#8 then b else b - 1#8).toNat = b.toNat - 1 := by
  by_cases h : b = 0#8
  · rw [if_pos h, h]; rfl
  · have h0 : b.toNat ≠ 0 := fun h' => h (BitVec.eq_of_toNat_eq h')
    have := b.isLt
    rw [if_neg h, BitVec.toNat_sub_of_le (by simp [BitVec.le_def]; omega)]
    rfl

/-- What an unlisted address reads as at `init`. -/
theorem State.readByte_init (s : State) (a : Nat) : s.init.readByte a = unlistedByte s.font (a % 4096) := rfl

/-- Every instruction answers a next state. -/
theorem exec_next (i : Instr) (s : State) : ∃ t, exec i s = .next t := by
  cases i
  case ldVxKey x =>
    simp only [exec, execLdVxKey]
    cases leastKeyDown s.key <;> exact ⟨_, rfl⟩
  all_goals exact ⟨_, rfl⟩

/-- What a step can be: an instruction's effect and the tick, or the unknown word's and the tick (R58). -/
theorem step_cases {s t : State} (h : step s = .next t) :
    (∃ i u, decode s.fetch = .instr i ∧ exec i s.beginStep = .next u ∧ t = u.tick) ∨
    (∃ w, decode s.fetch = .unknown w ∧ t = (s.beginStep.unknownOpcode w).tick) := by
  unfold step at h
  split at h
  · next i hd =>
    obtain ⟨u, hu⟩ := exec_next i s.beginStep
    rw [hu] at h
    injection h with h
    exact .inl ⟨i, u, hd, hu, h.symm⟩
  · next w hd =>
    injection h with h
    exact .inr ⟨w, hd, h.symm⟩

/-- One step of a run that goes on. -/
theorem run_next (k : Nat) {s t : State} (h : step s = .next t) :
    Host.Core.run Sys2Proof.core (k + 1) s = Host.Core.run Sys2Proof.core k t := by
  have hc : Sys2Proof.core.step s = .next t := h
  simp only [Host.Core.run, hc]

end Sys2Proof.Machine
end

