-- ==== Sys2Proof/Laws/PerInstr.lean ====
section
/-! SUPPORT. A statement for every instruction as syntax: its encoding has the fixed bits of its own row of the opcode
map (spec/30_encoding.md R50, R51). One lemma a constructor. -/

namespace Sys2Proof.Laws

/-- The word `op, nnn` under the mask of format FA. -/
theorem formatFA_mask (op : Nibble) (nnn : Addr12) : formatFA op nnn &&& 0xF000 = formatFA op 0 := by
  rw [show (0xF000 : Word) = (0xF#4 ++ 0x000#12) from rfl, formatFA, BitVec.and_append, formatFA]
  congr 1
  · revert op; decide
  · simp

/-- The word `op, x, nn` under the mask of format FR. -/
theorem formatFR_mask (op : Nibble) (x : RegIdx) (nn : Byte) : formatFR op x nn &&& 0xF000 = formatFA op 0 := by
  rw [formatFR_eq, formatFA_mask]

/-- The word `op, x, y, n` under the mask of format FD. -/
theorem formatFRR_mask_op (op : Nibble) (x y : RegIdx) (n : Nibble) : formatFRR op x y n &&& 0xF000 = formatFA op 0 := by
  rw [formatFRR_eq, formatFA_mask]

/-- The word `op, x, nn` under the mask of format FX. -/
theorem formatFR_mask_function (op : Nibble) (x : RegIdx) (nn : Byte) :
    formatFR op x nn &&& 0xF0FF = formatFR op 0 nn := by
  rw [show (0xF0FF : Word) = (0xF#4 ++ (0x0#4 ++ 0xFF#8 : BitVec 12)) from rfl, formatFR, BitVec.and_append,
    BitVec.and_append, formatFR]
  congr 1
  · revert op; decide
  · congr 1
    · revert x; decide
    · exact BitVec.and_allOnes

/-- The word `op, x, y, n` under the mask of format FRR. -/
theorem formatFRR_mask (op : Nibble) (x y : RegIdx) (n : Nibble) :
    formatFRR op x y n &&& 0xF00F = formatFRR op 0 0 n := by
  rw [show (0xF00F : Word) = (0xF#4 ++ (0x0#4 ++ (0x0#4 ++ 0xF#4 : BitVec 8) : BitVec 12)) from rfl, formatFRR,
    BitVec.and_append, BitVec.and_append, BitVec.and_append, formatFRR]
  congr 1
  · revert op; decide
  · congr 1
    · revert x; decide
    · congr 1
      · revert y; decide
      · revert n; decide

end Sys2Proof.Laws

namespace Sys2Proof.Laws.EncodeInRow

/-- The encoding of an instruction matches the row of the opcode map that its constructor stands for. -/
def Statement (i : Instr) : Prop :=
  ∃ r, opcodeTable[i.rowNumber]? = some r ∧ r.covers (encode i) = true

/-- A row covers a word when the word's bits under the mask are the row's. -/
theorem of_mask {i : Instr} {r : Row} (h : opcodeTable[i.rowNumber]? = some r) (hw : encode i &&& r.mask = r.bits) :
    Statement i := ⟨r, h, by simp [Row.covers, hw]⟩

theorem cls : Statement .cls := of_mask rfl (by decide)
theorem ret : Statement .ret := of_mask rfl (by decide)
theorem jp (nnn : Addr12) : Statement (.jp nnn) := of_mask rfl (formatFA_mask _ _)
theorem call (nnn : Addr12) : Statement (.call nnn) := of_mask rfl (formatFA_mask _ _)
theorem seImm (x : RegIdx) (nn : Byte) : Statement (.seImm x nn) := of_mask rfl (formatFR_mask _ _ _)
theorem sneImm (x : RegIdx) (nn : Byte) : Statement (.sneImm x nn) := of_mask rfl (formatFR_mask _ _ _)
theorem seReg (x y : RegIdx) : Statement (.seReg x y) := of_mask rfl (formatFRR_mask _ _ _ _)
theorem ldImm (x : RegIdx) (nn : Byte) : Statement (.ldImm x nn) := of_mask rfl (formatFR_mask _ _ _)
theorem addImm (x : RegIdx) (nn : Byte) : Statement (.addImm x nn) := of_mask rfl (formatFR_mask _ _ _)
theorem ldReg (x y : RegIdx) : Statement (.ldReg x y) := of_mask rfl (formatFRR_mask _ _ _ _)
theorem orReg (x y : RegIdx) : Statement (.orReg x y) := of_mask rfl (formatFRR_mask _ _ _ _)
theorem andReg (x y : RegIdx) : Statement (.andReg x y) := of_mask rfl (formatFRR_mask _ _ _ _)
theorem xorReg (x y : RegIdx) : Statement (.xorReg x y) := of_mask rfl (formatFRR_mask _ _ _ _)
theorem addReg (x y : RegIdx) : Statement (.addReg x y) := of_mask rfl (formatFRR_mask _ _ _ _)
theorem subReg (x y : RegIdx) : Statement (.subReg x y) := of_mask rfl (formatFRR_mask _ _ _ _)
theorem shr (x y : RegIdx) : Statement (.shr x y) := of_mask rfl (formatFRR_mask _ _ _ _)
theorem subn (x y : RegIdx) : Statement (.subn x y) := of_mask rfl (formatFRR_mask _ _ _ _)
theorem shl (x y : RegIdx) : Statement (.shl x y) := of_mask rfl (formatFRR_mask _ _ _ _)
theorem sneReg (x y : RegIdx) : Statement (.sneReg x y) := of_mask rfl (formatFRR_mask _ _ _ _)
theorem ldI (nnn : Addr12) : Statement (.ldI nnn) := of_mask rfl (formatFA_mask _ _)
theorem jpV0 (nnn : Addr12) : Statement (.jpV0 nnn) := of_mask rfl (formatFA_mask _ _)
theorem rnd (x : RegIdx) (nn : Byte) : Statement (.rnd x nn) := of_mask rfl (formatFR_mask _ _ _)
theorem drw (x y : RegIdx) (n : Nibble) : Statement (.drw x y n) := of_mask rfl (formatFRR_mask_op _ _ _ _)
theorem skp (x : RegIdx) : Statement (.skp x) := of_mask rfl (formatFR_mask_function _ _ _)
theorem sknp (x : RegIdx) : Statement (.sknp x) := of_mask rfl (formatFR_mask_function _ _ _)
theorem ldVxDt (x : RegIdx) : Statement (.ldVxDt x) := of_mask rfl (formatFR_mask_function _ _ _)
theorem ldVxKey (x : RegIdx) : Statement (.ldVxKey x) := of_mask rfl (formatFR_mask_function _ _ _)
theorem ldDtVx (x : RegIdx) : Statement (.ldDtVx x) := of_mask rfl (formatFR_mask_function _ _ _)
theorem ldStVx (x : RegIdx) : Statement (.ldStVx x) := of_mask rfl (formatFR_mask_function _ _ _)
theorem addI (x : RegIdx) : Statement (.addI x) := of_mask rfl (formatFR_mask_function _ _ _)
theorem ldFont (x : RegIdx) : Statement (.ldFont x) := of_mask rfl (formatFR_mask_function _ _ _)
theorem ldBcd (x : RegIdx) : Statement (.ldBcd x) := of_mask rfl (formatFR_mask_function _ _ _)
theorem storeRegs (x : RegIdx) : Statement (.storeRegs x) := of_mask rfl (formatFR_mask_function _ _ _)
theorem loadRegs (x : RegIdx) : Statement (.loadRegs x) := of_mask rfl (formatFR_mask_function _ _ _)

end Sys2Proof.Laws.EncodeInRow
end

