-- ==== Sys2Proof/Laws/Values.lean ====
section
/-! SUPPORT. What the operand forms and the flags are worth as numbers, what a field keeps under an encoding's mask, and
the frames of the two commonest shapes of instruction. -/

namespace Sys2Proof.Machine

/-! ### Operands and flags as numbers -/

theorem toNat_immAddr (nnn : Addr12) : (immAddr nnn).toNat = nnn.toNat := by
  have := nnn.isLt
  simp only [immAddr, BitVec.toNat_setWidth]
  omega

theorem toNat_jumpTarget (nnn : Addr12) (v0 : Byte) : (jumpTarget nnn v0).toNat = nnn.toNat + v0.toNat := by
  have h1 := nnn.isLt; have h2 := v0.isLt
  simp only [jumpTarget, BitVec.toNat_add, toNat_immAddr, BitVec.toNat_setWidth]
  omega

theorem toNat_glyphAddr (vx : Byte) : (glyphAddr vx).toNat = vx.toNat * 5 := by
  have := vx.isLt
  simp only [glyphAddr, BitVec.toNat_ofNat]
  omega

theorem toNat_indexAfter (i : Word) (x : RegIdx) : (indexAfter i x).toNat = (i.toNat + x.val + 1) % 65536 :=
  BitVec.toNat_ofNat _ _

theorem toNat_hundreds (vx : Byte) : (hundreds vx).toNat = vx.toNat / 100 := by
  have := vx.isLt
  simp only [hundreds, BitVec.toNat_ofNat]
  omega

theorem toNat_tens (vx : Byte) : (tens vx).toNat = vx.toNat / 10 % 10 := by
  simp only [tens, BitVec.toNat_ofNat]
  omega

theorem toNat_units (vx : Byte) : (units vx).toNat = vx.toNat % 10 := by
  simp only [units, BitVec.toNat_ofNat]
  omega

theorem toNat_keyNumber (k : Fin 16) : (keyNumber k).toNat = k.val := by
  have := k.isLt
  simp only [keyNumber, BitVec.toNat_ofNat]
  omega

theorem toNat_flagByte (b : Bool) : (flagByte b).toNat = if b then 1 else 0 := by cases b <;> rfl

theorem toNat_noBorrowFlag (a b : Byte) : (noBorrowFlag a b).toNat = if b.toNat > a.toNat then 0 else 1 := by
  unfold noBorrowFlag
  split <;> rfl

/-- No key down: FX0A finds none. -/
theorem leastKeyDown_none {key : Vector Bool 16} (h : ∀ k : Fin 16, key.get k = false) : leastKeyDown key = none := by
  simp [leastKeyDown, h]

/-- Some key down: FX0A finds the least one. -/
theorem leastKeyDown_some {key : Vector Bool 16} {k : Fin 16} (h : key.get k = true)
    (hl : ∀ j, j < k → key.get j = false) : leastKeyDown key = some k := by
  unfold leastKeyDown keyIndexes
  revert hl h
  fin_cases k <;> intro h hl <;> simp_all [List.find?]

/-! ### Registers written -/

theorem State.reg_setReg_self (s : State) (x : RegIdx) (b : Byte) : (s.setReg x b).reg x = b := by simp

/-- One destination: every other register is as before. -/
theorem keepsRegsBut_setReg (s : State) (x : RegIdx) (b : Byte) : KeepsRegsBut [x] s (s.setReg x b) := by
  intro r hr
  rw [State.reg_setReg, if_neg (by simpa using hr)]

/-- A destination and the flag: every other register is as before. -/
theorem keepsRegsBut_setReg_flag (s : State) (x : RegIdx) (b f : Byte) :
    KeepsRegsBut [x, flagReg] s ((s.setReg x b).setReg flagReg f) := by
  intro r hr
  simp only [List.mem_cons, List.not_mem_nil, or_false, not_or] at hr
  rw [State.reg_setReg, if_neg hr.2, State.reg_setReg, if_neg hr.1]

/-- The flag is written last, and the destination keeps the result unless it is VF itself (R61). -/
theorem State.reg_setReg_flag (s : State) {x : RegIdx} (b f : Byte) (h : x ≠ flagReg) :
    ((s.setReg x b).setReg flagReg f).reg x = b := by simp [h]

/-! ### Frames -/

/-- A state that differs in the V registers and pc only. -/
theorem keepsAllButRegs_of_eq {s t : State} (h : t = { s with v := t.v, pc := t.pc }) : KeepsAllButRegs s t := by
  rw [h]
  exact ⟨fun _ => rfl, rfl, ⟨rfl, fun _ => rfl⟩, ⟨rfl, rfl⟩, fun _ => rfl, ⟨fun _ _ => rfl, rfl⟩⟩

/-- A state that differs in pc only. -/
theorem keepsAllButPc_of_eq {s t : State} (h : t = { s with pc := t.pc }) : KeepsAllButPc s t :=
  ⟨by rw [h]; exact fun _ _ => rfl, keepsAllButRegs_of_eq (by rw [h])⟩

/-! ### Encodings -/

/-- An encoding whose mask keeps the first nibble only. -/
theorem encodedBy_of_op {mask bits : Word} {f : Word → Instr} (hm : opNibble mask = 15)
    (h : ∀ w, opNibble w = opNibble bits → decode w = .instr (f w)) : EncodedBy mask bits f :=
  fun w hw => h w (opNibble_of_mask hw hm)

/-- An encoding whose mask keeps the first nibble and the last. -/
theorem encodedBy_of_op_n {mask bits : Word} {f : Word → Instr} (hm : opNibble mask = 15) (hn : fieldN mask = 15)
    (h : ∀ w, opNibble w = opNibble bits → fieldN w = fieldN bits → decode w = .instr (f w)) : EncodedBy mask bits f :=
  fun w hw => h w (opNibble_of_mask hw hm) (fieldN_of_mask hw hn)

/-! ### A word placed where the step fetches -/

/-- The placed word is the one fetched. -/
theorem State.fetch_withFetchWord (s : State) (w : Nat) (h : w < 65536) :
    (s.withFetchWord 16 w).fetch = BitVec.ofNat 16 w := by
  have hw : w % 2 ^ 16 = w := Nat.mod_eq_of_lt h
  have hne : s.pc.toNat % 4096 ≠ (s.pc.toNat + 1) % 4096 := by omega
  simp only [State.withFetchWord, State.fetch, State.writeByte_pc, State.readByte_writeByte, hw, if_true, hne, if_false,
    wordOfBytes_bytes]

end Sys2Proof.Machine
end

