-- ==== Sys2Proof/Tests/Slice0.lean ====
section
/-! SUPPORT. The model's own tests: ill-formed words, a decoding for every constructor with the word written out from
the spec's encoding, steps on the vectors of spec/95_test_vectors.md (named S, F, A, M, X, K, U, L there), and for every
statement with hypotheses a witness that meets them. -/

namespace Sys2Proof.Tests

open Sys2Proof.Machine

/-! ### Words that are no instruction (30_encoding.md R50, R52; vector U2) -/

theorem test_illFormed_family0 : WellFormed 0x0000 = false ∧ WellFormed 0x01E0 = false ∧ WellFormed 0x00E1 = false := by
  decide
theorem test_illFormed_family5 : WellFormed 0x5121 = false := by decide
theorem test_illFormed_family8 : WellFormed 0x8008 = false ∧ WellFormed 0x800F = false := by decide
theorem test_illFormed_family9 : WellFormed 0x9123 = false := by decide
theorem test_illFormed_familyE : WellFormed 0xE000 = false ∧ WellFormed 0xE19F = false := by decide
theorem test_illFormed_familyF : WellFormed 0xF000 = false ∧ WellFormed 0xF0FF = false ∧ WellFormed 0xFFFF = false := by
  decide
/-- Every row of the map refuses a word that differs from its pattern in a fixed bit (its lowest one). -/
theorem test_illFormed_everyRow : opcodeTable.all (fun r => !r.covers (r.bits ^^^ (r.mask &&& 0x1001))) = true := by decide
theorem test_wellFormed_accepts : WellFormed 0x00E0 = true ∧ WellFormed 0xD125 = true := by decide
theorem test_table_size : opcodeTable.length = 34 := by decide

/-! ### Decoding, every constructor: the word in binary from the layouts of R46 -/

theorem test_decode_cls : decode 0b0000000011100000 = .instr .cls := by decide
theorem test_decode_ret : decode 0b0000000011101110 = .instr .ret := by decide
theorem test_decode_jp : decode 0b0001001000101000 = .instr (.jp 0x228) := by decide
theorem test_decode_call : decode 0b0010111111111110 = .instr (.call 0xFFE) := by decide
theorem test_decode_seImm : decode 0b0011001100000101 = .instr (.seImm 3 0x05) := by decide
theorem test_decode_sneImm : decode 0b0100111110000000 = .instr (.sneImm 15 0x80) := by decide
theorem test_decode_seReg : decode 0b0101000100100000 = .instr (.seReg 1 2) := by decide
theorem test_decode_ldImm : decode 0b0110101010011101 = .instr (.ldImm 10 0x9D) := by decide
theorem test_decode_addImm : decode 0b0111000000000001 = .instr (.addImm 0 0x01) := by decide
theorem test_decode_ldReg : decode 0b1000000100100000 = .instr (.ldReg 1 2) := by decide
theorem test_decode_orReg : decode 0b1000000100100001 = .instr (.orReg 1 2) := by decide
theorem test_decode_andReg : decode 0b1000000100100010 = .instr (.andReg 1 2) := by decide
theorem test_decode_xorReg : decode 0b1000000100100011 = .instr (.xorReg 1 2) := by decide
theorem test_decode_addReg : decode 0b1000111100010100 = .instr (.addReg 15 1) := by decide
theorem test_decode_subReg : decode 0b1000000111110101 = .instr (.subReg 1 15) := by decide
theorem test_decode_shr : decode 0b1000000100100110 = .instr (.shr 1 2) := by decide
theorem test_decode_subn : decode 0b1000000100100111 = .instr (.subn 1 2) := by decide
theorem test_decode_shl : decode 0b1000000100101110 = .instr (.shl 1 2) := by decide
theorem test_decode_sneReg : decode 0b1001000100100000 = .instr (.sneReg 1 2) := by decide
theorem test_decode_ldI : decode 0b1010001100000000 = .instr (.ldI 0x300) := by decide
theorem test_decode_jpV0 : decode 0b1011111111111111 = .instr (.jpV0 0xFFF) := by decide
theorem test_decode_rnd : decode 0b1100001100001111 = .instr (.rnd 3 0x0F) := by decide
theorem test_decode_drw : decode 0b1101000100101010 = .instr (.drw 1 2 0xA) := by decide
theorem test_decode_skp : decode 0b1110001010011110 = .instr (.skp 2) := by decide
theorem test_decode_sknp : decode 0b1110001010100001 = .instr (.sknp 2) := by decide
theorem test_decode_ldVxDt : decode 0b1111010000000111 = .instr (.ldVxDt 4) := by decide
theorem test_decode_ldVxKey : decode 0b1111010100001010 = .instr (.ldVxKey 5) := by decide
theorem test_decode_ldDtVx : decode 0b1111001100010101 = .instr (.ldDtVx 3) := by decide
theorem test_decode_ldStVx : decode 0b1111000100011000 = .instr (.ldStVx 1) := by decide
theorem test_decode_addI : decode 0b1111111100011110 = .instr (.addI 15) := by decide
theorem test_decode_ldFont : decode 0b1111000000101001 = .instr (.ldFont 0) := by decide
theorem test_decode_ldBcd : decode 0b1111101000110011 = .instr (.ldBcd 10) := by decide
theorem test_decode_storeRegs : decode 0b1111001101010101 = .instr (.storeRegs 3) := by decide
theorem test_decode_loadRegs : decode 0b1111111101100101 = .instr (.loadRegs 15) := by decide
/-- The table's numbering: bit 0 is the least significant bit of the word; the high byte lies lower in memory (R36). -/
theorem test_decodeTableWord : decodeTableWord 16 0xF355 = some (.storeRegs 3) ∧ decodeTableWord 16 0x01E0 = none := by
  decide

/-! ### One step on a small state -/

/-- Whether an outcome is a next state with a property. -/
def holds (r : Host.Outcome State Fault Refusal) (p : State → Bool) : Bool :=
  match r with
  | .next t => p t
  | .fault _ => false
  | .refused _ => false

/-- One step of the word `w` placed at the pc. -/
def stepOf (w : Nat) (s : State) (p : State → Bool) : Bool := holds (step (s.withFetchWord 16 w)) p

/-- The state after `init`. -/
def s0 : State := State.reset
/-- After `init`, with pc elsewhere. -/
def atPc (a : Word) : State := s0.setPc a
/-- After `init`, with V1 and V2 set. -/
def withV12 (a b : Byte) : State := (s0.setReg 1 a).setReg 2 b

theorem test_step_jp : stepOf 0x1228 s0 (fun t => t.pc == 0x228) = true := by decide -- F1
theorem test_step_call : stepOf 0x2210 (atPc 0x204) (fun t => t.slot 0 == 0x204 && t.sp == 1 && t.pc == 0x210) = true := by
  decide -- F2
theorem test_step_call_overflow : -- F5
    stepOf 0x2300 (atPc 0x250) (fun t => t.slot 0 == 0x250 && t.sp == 1 && t.pc == 0x300) = true := by decide
theorem test_step_ret : -- F3
    stepOf 0x00EE ((s0.push 0x204).setPc 0x212) (fun t => t.sp == 0 && t.pc == 0x206 && t.slot 0 == 0x204) = true := by
  decide
theorem test_step_ret_underflow : stepOf 0x00EE s0 (fun t => t.sp == 15 && t.pc == 0x0002) = true := by decide -- F4
theorem test_step_seImm_skips : stepOf 0x3305 ((atPc 0x208).setReg 3 5) (fun t => t.pc == 0x20C) = true := by decide -- S1
theorem test_step_seImm_wraps : stepOf 0x3000 (atPc 0xFFFC) (fun t => t.pc == 0x0000) = true := by decide -- F15
theorem test_step_sneImm_skips : stepOf 0x4305 ((atPc 0x208).setReg 3 4) (fun t => t.pc == 0x20C) = true := by decide -- F6
theorem test_step_sneImm_goes_on : stepOf 0x4305 ((atPc 0x208).setReg 3 5) (fun t => t.pc == 0x20A) = true := by
  decide -- F7
theorem test_step_seReg_skips : stepOf 0x5120 ((withV12 0x7F 0x7F).setPc 0x300) (fun t => t.pc == 0x304) = true := by
  decide -- F8
theorem test_step_seReg_goes_on : stepOf 0x5120 ((withV12 0x7F 0x7E).setPc 0x300) (fun t => t.pc == 0x302) = true := by
  decide -- F9
theorem test_step_sneReg_skips : stepOf 0x9120 ((withV12 1 2).setPc 0x300) (fun t => t.pc == 0x304) = true := by
  decide -- F10
theorem test_step_sneReg_goes_on : stepOf 0x9120 ((withV12 2 2).setPc 0x300) (fun t => t.pc == 0x302) = true := by
  decide -- F11
theorem test_step_jpV0 : stepOf 0xBFFF (s0.setReg 0 0xFF) (fun t => t.pc == 0x10FE) = true := by decide -- F14
theorem test_step_fetch_above_memory : -- F14: pc 0x10FE fetches bytes 0x0FE and 0x0FF
    holds (step (atPc 0x10FE)) (fun t => t.pc == 0x1100 && t.events == [.diag 0x0000 0x10FE]) = true := by decide

theorem test_step_ldImm : stepOf 0x6A9D s0 (fun t => t.reg 10 == 0x9D && t.pc == 0x202) = true := by decide -- A1
theorem test_step_ldImm_wraps_pc : -- U5
    stepOf 0x6000 (atPc 0xFFFE) (fun t => t.pc == 0x0000) = true := by decide
theorem test_step_addImm : -- A2
    stepOf 0x7101 ((s0.setReg 1 0xFF).setReg 15 0x33) (fun t => t.reg 1 == 0 && t.reg 15 == 0x33) = true := by decide
theorem test_step_addImm_vf : stepOf 0x7F01 (s0.setReg 15 0xFF) (fun t => t.reg 15 == 0) = true := by decide -- A3
theorem test_step_ldReg : stepOf 0x8120 (withV12 0 0x33) (fun t => t.reg 1 == 0x33) = true := by decide -- A4
theorem test_step_orReg : stepOf 0x8121 (withV12 0xF0 0x0F) (fun t => t.reg 1 == 0xFF) = true := by decide -- A5
theorem test_step_andReg : stepOf 0x8122 (withV12 0xF0 0x3C) (fun t => t.reg 1 == 0x30) = true := by decide -- A6
theorem test_step_xorReg : -- A7
    stepOf 0x8113 ((s0.setReg 1 0x5A).setReg 15 0x77) (fun t => t.reg 1 == 0 && t.reg 15 == 0x77) = true := by decide
theorem test_step_addReg_carries : stepOf 0x8124 (withV12 0xFF 1) (fun t => t.reg 1 == 0 && t.reg 15 == 1) = true := by
  decide -- S2
theorem test_step_addReg_vf : -- A8
    stepOf 0x8F14 ((s0.setReg 15 0x80).setReg 1 0x90) (fun t => t.reg 15 == 1) = true := by decide
theorem test_step_subReg_borrows : stepOf 0x8125 (withV12 1 2) (fun t => t.reg 1 == 0xFF && t.reg 15 == 0) = true := by
  decide -- S3
theorem test_step_subReg_equal : stepOf 0x8125 (withV12 7 7) (fun t => t.reg 1 == 0 && t.reg 15 == 1) = true := by
  decide -- A10
theorem test_step_shr : -- A12
    stepOf 0x8126 (withV12 5 0xFF) (fun t => t.reg 1 == 2 && t.reg 15 == 1 && t.reg 2 == 0xFF) = true := by decide
theorem test_step_shr_vf : stepOf 0x8F06 (s0.setReg 15 2) (fun t => t.reg 15 == 0) = true := by decide -- A13
theorem test_step_subn_borrows : stepOf 0x8127 (withV12 2 1) (fun t => t.reg 1 == 0xFF && t.reg 15 == 0) = true := by
  decide -- A15
theorem test_step_subn : stepOf 0x8127 (withV12 1 5) (fun t => t.reg 1 == 4 && t.reg 15 == 1) = true := by decide -- A16
theorem test_step_shl : stepOf 0x810E (withV12 0x81 0) (fun t => t.reg 1 == 2 && t.reg 15 == 1) = true := by decide -- A18
theorem test_step_shl_vf : stepOf 0x8F0E (s0.setReg 15 0x81) (fun t => t.reg 15 == 1) = true := by decide -- A19
/-- A21: with NN = 0 the result is 0 whatever the draw. -/
theorem test_exec_rnd_zero : ∃ t, exec (.rnd 3 0x00) s0 = .next t ∧ t.reg 3 = 0x00 ∧ t.draws = 1 := by
  refine ⟨_, rfl, ?_, rfl⟩
  show (State.setReg _ 3 (_ &&& 0x00)).reg 3 = 0x00
  rw [State.reg_setReg_self]
  exact BitVec.and_zero

theorem test_step_ldI : stepOf 0xA300 s0 (fun t => t.i == 0x300) = true := by decide -- M1
theorem test_step_addI_boundary : -- M2, M3
    stepOf 0xF01E ((s0.setI 0x0FFA).setReg 0 5) (fun t => t.i == 0x0FFF && t.reg 15 == 0) = true ∧
    stepOf 0xF01E ((s0.setI 0x0FFF).setReg 0 1) (fun t => t.i == 0x1000 && t.reg 15 == 1) = true := by decide
theorem test_step_addI_wraps : -- M4
    stepOf 0xF01E ((s0.setI 0xFFFF).setReg 0 1) (fun t => t.i == 0x0000 && t.reg 15 == 1) = true := by decide
theorem test_step_ldFont : stepOf 0xF029 (s0.setReg 0 0xFF) (fun t => t.i == 0x04FB) = true := by decide -- M8
theorem test_step_ldBcd : -- S4
    stepOf 0xF033 ((s0.setI 0x300).setReg 0 157)
      (fun t => t.readByte 0x300 == 1 && t.readByte 0x301 == 5 && t.readByte 0x302 == 7 && t.i == 0x300) = true := by
  decide
theorem test_step_ldBcd_wraps : -- M9
    stepOf 0xF033 ((s0.setI 0xFFF).setReg 0 0xFF)
      (fun t => t.readByte 0xFFF == 2 && t.readByte 0 == 5 && t.readByte 1 == 5) = true := by decide
theorem test_step_storeRegs_wraps : -- M12
    stepOf 0xF355 (((((s0.setI 0xFFE).setReg 0 1).setReg 1 2).setReg 2 3).setReg 3 4 |>.setPc 0x300)
      (fun t => t.readByte 0xFFE == 1 && t.readByte 0xFFF == 2 && t.readByte 0 == 3 && t.readByte 1 == 4 &&
        t.i == 0x1002 && t.pc == 0x302) = true := by decide
theorem test_step_storeRegs_one : -- M11
    stepOf 0xF055 ((s0.setI 0x400).setReg 0 0xAB) (fun t => t.readByte 0x400 == 0xAB && t.i == 0x401) = true := by decide
theorem test_step_loadRegs : -- R92's example
    stepOf 0xF265 (((s0.setI 0x300).writeByte 0x300 1).writeByte 0x301 5 |>.writeByte 0x302 7)
      (fun t => t.reg 0 == 1 && t.reg 1 == 5 && t.reg 2 == 7 && t.reg 3 == 0 && t.i == 0x303) = true := by decide

theorem test_step_cls : -- X7
    stepOf 0x00E0 { (s0.present (Framebuffer.flip s0.fb 5 5)) with redraw := false }
      (fun t => !t.pixel 5 5 && t.redraw && t.pc == 0x202) = true := by decide
theorem test_step_drw_wraps : -- R95's example
    stepOf 0xD122 (((withV12 0x3F 0x1F).setI 0x220).writeByte 0x220 0xC0 |>.writeByte 0x221 0x80)
      (fun t => t.pixel 63 31 && t.pixel 0 31 && t.pixel 63 0 && !t.pixel 0 0 && t.reg 15 == 0 && t.redraw) = true := by
  decide
theorem test_step_drw_collides : -- X5: the x coordinate is the old VF
    stepOf 0xDF11 ((((s0.present (Framebuffer.flip s0.fb 10 3)).setReg 15 0x0A).setReg 1 3).setI 0x300 |>.writeByte 0x300 0x80)
      (fun t => !t.pixel 10 3 && t.reg 15 == 1) = true := by decide
theorem test_step_drw_nothing : -- X1
    stepOf 0xD120 { (s0.setReg 15 1) with redraw := false } (fun t => t.reg 15 == 0 && t.redraw) = true := by decide

theorem test_step_skp_wraps : stepOf 0xE29E (setKey 7 true (s0.setReg 2 0x17)) (fun t => t.pc == 0x204) = true := by
  decide -- K1
theorem test_step_sknp : stepOf 0xE2A1 (setKey 7 true (s0.setReg 2 0x17)) (fun t => t.pc == 0x202) = true := by
  decide -- K2
theorem test_step_ldVxDt : stepOf 0xF407 (s0.setDt 2) (fun t => t.reg 4 == 2 && t.dt == 1) = true := by decide -- K4
theorem test_step_ldVxKey_least : -- K5
    stepOf 0xF50A (setKey 3 true (setKey 9 true s0)) (fun t => t.reg 5 == 3 && t.pc == 0x202) = true := by decide
theorem test_step_ldVxKey_waits : -- K6, K7
    stepOf 0xF00A ((s0.setDt 3).setSt 2) (fun t => t.pc == 0x200 && t.dt == 2 && t.st == 1 && t.events == []) = true := by
  decide
theorem test_step_ldDtVx : stepOf 0xF315 (s0.setReg 3 3) (fun t => t.dt == 2) = true := by decide -- K8
theorem test_step_ldStVx_beeps : -- S9
    stepOf 0xF118 (s0.setReg 1 1) (fun t => t.st == 0 && t.events == [.beep]) = true := by decide
theorem test_step_ldStVx_silent : -- K10
    stepOf 0xF118 (s0.setReg 1 2) (fun t => t.st == 1 && t.events == []) = true := by decide
theorem test_step_unknown_beeps : -- U3
    stepOf 0x0000 (s0.setSt 1) (fun t => t.events == [.diag 0x0000 0x200, .beep] && t.pc == 0x202 && t.st == 0) = true := by
  decide
theorem test_step_fetch_across_the_top : -- U4
    holds (step (atPc 0x0FFF)) (fun t => t.events == [.diag 0x00F0 0x0FFF] && t.pc == 0x1001) = true := by decide

/-! ### Reset and the host's operations -/

/-- R28 at the edges of the font: its last byte (D14's default), the zero after it. -/
theorem test_reset_font_edge : State.reset.readByte 79 = 0x80 ∧ State.reset.readByte 80 = 0 ∧ State.reset.readByte 0 = 0xF0 := by
  decide
theorem test_load_odd_then_short : -- L2, L3
    let t := (loadProgram [0xAB] (loadProgram [0x12, 0x00, 0x60] s0).2).2
    t.readByte 0x200 = 0xAB ∧ t.readByte 0x201 = 0x00 ∧ t.readByte 0x202 = 0x60 ∧ t.readByte 0x203 = 0 := by decide
theorem test_load_empty : loadProgram [] s0 = (.loaded, s0) := rfl -- L1
/-- A byte written over the font with what it held is no longer listed: the form is canonical. -/
theorem test_write_back_unlists : ((s0.writeByte 0 5).writeByte 0 0xF0).mem = [] ∧ (s0.writeByte 0 5).mem = [(0, 5)] := by
  decide

/-! ### Witnesses: states and operands that meet the hypotheses of the statements -/

theorem witness_encodeOfDecode : ∃ (w : Word) (i : Instr), decode w = .instr i := ⟨0x8126, .shr 1 2, by decide⟩
theorem witness_decodeFollowsTheMap :
    (∃ (w : Word) (n : Nat) (r : Row), opcodeTable[n]? = some r ∧ r.covers w = true) ∧ (∃ w, WellFormed w = false) :=
  ⟨⟨0x810E, 17, ⟨"8XYE", "SHL", 0x800E, 0xF00F⟩, by decide, by decide⟩, 0x5121, by decide⟩
theorem witness_stepRunsTheDecodedInstruction :
    (∃ s i t, decode (State.fetch s) = .instr i ∧ exec i s.beginStep = .next t) ∧
    (∃ s w, decode (State.fetch s) = .unknown w) :=
  ⟨⟨s0.withFetchWord 16 0x1228, .jp 0x228, _, by decide, rfl⟩, s0, 0x0000, by decide⟩
theorem witness_unknownWordStep : ∃ s w, decode (State.fetch s) = .unknown w := ⟨atPc 0x0FFF, 0x00F0, by decide⟩
theorem witness_step_next : ∃ s t, State.Inv s ∧ step s = .next t := ⟨s0, _, ⟨rfl, rfl⟩, rfl⟩
theorem witness_hostCalls : ∃ s, State.Inv s ∧ s.mem ≠ [] := ⟨s0.writeByte 0x200 1, ⟨by decide, rfl⟩, by decide⟩
theorem witness_retAfterCall : ∃ (nnn : Addr12) (s t u : State), exec (.call nnn) s = .next t ∧ u.sp = t.sp ∧
    (∀ k, u.slot k = t.slot k) := ⟨0x210, s0, _, _, rfl, rfl, fun _ => rfl⟩
theorem witness_jumpToSelf : ∃ (nnn : Addr12) (s : State), decode s.fetch = .instr (.jp nnn) ∧ s.pc.toNat = nnn.toNat :=
  ⟨0x20C, (atPc 0x20C).withFetchWord 16 0x120C, by decide, by decide⟩
theorem witness_flagged_destination : ∃ x : RegIdx, x ≠ flagReg := ⟨1, by decide⟩
theorem witness_rnd_masked_bit : ∃ (nn : Byte) (b : Nat), nn.getLsbD b = false := ⟨0x0F, 4, by decide⟩
theorem witness_storeThenLoad : ∃ (x : RegIdx) (s t u : State), exec (.storeRegs x) s = .next t ∧ u.i = s.i ∧
    KeepsMemory t u := by
  refine ⟨2, s0.setI 0x300, _, State.setI _ 0x300, rfl, rfl, fun a => rfl⟩
theorem witness_storedBytesAreFetched : ∃ (x j k : RegIdx) (s t : State) (p : Word), exec (.storeRegs x) s = .next t ∧
    k ≤ x ∧ j.val + 1 = k.val ∧ p.toNat % 4096 = (s.i.toNat + j.val) % 4096 :=
  ⟨1, 0, 1, s0.setI 0xFFF, _, 0xFFF, rfl, by decide, by decide, by decide⟩
theorem witness_drawTwice : ∃ (x y : RegIdx) (n : Nibble) (s t u : State), exec (.drw x y n) s = .next t ∧
    (∀ px py, u.pixel px py = t.pixel px py) ∧ KeepsMemory s u ∧ u.i = s.i ∧ u.reg x = s.reg x ∧ u.reg y = s.reg y :=
  ⟨1, 2, 5, s0, _, _, rfl, fun _ _ => rfl, fun _ => rfl, rfl, rfl, rfl⟩
/-- The top left pixel of glyph 0, drawn at (0, 0) after reset, is covered; with N = 0 nothing is. -/
theorem witness_spriteCovers : SpriteCovers s0 0 0 5 0 0 ∧ ¬ SpriteCovers s0 0 0 0 0 0 :=
  ⟨⟨0, 0, by decide, by decide, by decide, by decide, by decide⟩, fun ⟨_, _, h, _⟩ => absurd h (Nat.not_lt_zero _)⟩
theorem witness_ldVxKey : (∃ s : State, ∀ k, s.keyDown k = false) ∧
    ∃ (s : State) (k : Fin 16), s.keyDown k = true ∧ ∀ j, j < k → s.keyDown j = false :=
  ⟨⟨s0, by decide⟩, setKey 15 true s0, 15, by decide, by decide⟩
theorem witness_ldVxDt : ∃ s : State, 0 < s.dt.toNat := ⟨s0.setDt 1, by decide⟩
theorem witness_screenKept : ∃ (i : Instr) (s t : State), exec i s = .next t ∧ i ≠ .cls ∧ (∀ x y n, i ≠ .drw x y n) ∧
    s.redraw = true := ⟨.jp 0x300, s0, _, rfl, by decide, by intro x y n; exact nofun, rfl⟩
theorem witness_memoryKept : ∃ (i : Instr) (s t : State), exec i s = .next t ∧ (∀ x, i ≠ .ldBcd x) ∧
    (∀ x, i ≠ .storeRegs x) := ⟨.loadRegs 3, s0, _, rfl, by intro x; exact nofun, by intro x; exact nofun⟩
theorem witness_stackKept : ∃ (i : Instr) (s t : State), exec i s = .next t ∧ i ≠ .ret ∧ (∀ nnn, i ≠ .call nnn) :=
  ⟨.cls, s0, _, rfl, by decide, by intro x; exact nofun⟩
theorem witness_indexAndTimersKept : ∃ (i : Instr) (s t : State), exec i s = .next t ∧ (∀ nnn, i ≠ .ldI nnn) ∧
    (∀ x, i ≠ .addI x ∧ i ≠ .ldFont x ∧ i ≠ .storeRegs x ∧ i ≠ .loadRegs x) ∧ (∀ x, i ≠ .ldDtVx x) ∧
    (∀ x, i ≠ .ldStVx x) :=
  ⟨.drw 1 2 3, s0, _, rfl, by intro x; exact nofun, fun x => ⟨by exact nofun, by exact nofun, by exact nofun, by exact nofun⟩,
    by intro x; exact nofun, by intro x; exact nofun⟩
theorem witness_registersWritten : ∃ (i : Instr) (s t : State) (r : RegIdx), exec i s = .next t ∧ r ∉ regsWritten i :=
  ⟨.loadRegs 3, s0, _, 4, rfl, by decide⟩
theorem witness_sameToProgram : ∃ s s' : State, SameToProgram s s' ∧ s ≠ s' :=
  ⟨s0, s0.setSt 9, rfl, fun h => absurd (congrArg State.st h) (by decide)⟩
theorem witness_loadProgram : (∃ image : List Byte, image.length > 3584) ∧ ∃ image : List Byte, image.length = 3584 :=
  ⟨⟨List.replicate 3585 0, by rw [List.length_replicate]; decide⟩, List.replicate 3584 0, List.length_replicate⟩

/-- A word under each encoding that a result statement speaks of. -/
theorem witness_encodedBy :
    (0x1228 &&& 0xF000 : Word) = 0x1000 ∧ (0x3305 &&& 0xF000 : Word) = 0x3000 ∧ (0x4305 &&& 0xF000 : Word) = 0x4000 ∧
    (0x5120 &&& 0xF00F : Word) = 0x5000 ∧ (0x9120 &&& 0xF00F : Word) = 0x9000 ∧ (0x6A9D &&& 0xF000 : Word) = 0x6000 ∧
    (0x8120 &&& 0xF00F : Word) = 0x8000 ∧ (0x8124 &&& 0xF00F : Word) = 0x8004 ∧ (0x8125 &&& 0xF00F : Word) = 0x8005 ∧
    (0x8127 &&& 0xF00F : Word) = 0x8007 ∧ (0xA300 &&& 0xF000 : Word) = 0xA000 := by decide
/-- With I = 0xFFF the three bytes of FX33 are 0xFFF, 0 and 1, and 0xFFE and 2 are outside them. -/
theorem witness_bcd_outside : ∃ s : State, (∀ k, k < 3 → 0xFFE % 4096 ≠ (s.i.toNat + k) % 4096) ∧
    (∀ k, k < 3 → 2 % 4096 ≠ (s.i.toNat + k) % 4096) := ⟨s0.setI 0xFFF, by decide, by decide⟩
/-- With I = 0xFFE and X = 3 the stored bytes are 0xFFE, 0xFFF, 0 and 1, and 0xFFD and 2 are outside them. -/
theorem witness_store_outside : ∃ (s : State) (x : RegIdx),
    (∀ k : RegIdx, k ≤ x → 0xFFD % 4096 ≠ (s.i.toNat + k.val) % 4096) ∧
    (∀ k : RegIdx, k ≤ x → 2 % 4096 ≠ (s.i.toNat + k.val) % 4096) := ⟨s0.setI 0xFFE, 3, by decide, by decide⟩
/-- The addresses next to a two-byte image. -/
theorem witness_load_outside : (0x1FF % 4096 < 0x200) ∧ 0x200 + [0x12, 0x00].length ≤ 0x202 % 4096 := by decide

end Sys2Proof.Tests
end

section
/-! PROOFS. What `init` leaves (spec/10_state.md R28; spec/70_reset_and_hazards.md R118): one lemma for each accessor
that reads into a vector, then the whole table. -/

namespace Sys2Proof.Machine

/-- A vector filled with one value reads as that value at every index. -/
theorem vector_get_replicate {α : Type} {n : Nat} (a : α) (k : Fin n) : (Vector.replicate n a).get k = a := by
  simp [Vector.get]

@[simp] theorem State.reg_init (s : State) (r : RegIdx) : s.init.reg r = 0x00 := vector_get_replicate _ r

@[simp] theorem State.slot_init (s : State) (k : Fin 16) : s.init.slot k = 0x0000 := vector_get_replicate _ k

@[simp] theorem State.keyDown_init (s : State) (k : Fin 16) : s.init.keyDown k = false := vector_get_replicate _ k

/-- `init` leaves the blank framebuffer, the one 00E0 presents. -/
@[simp] theorem State.fb_init (s : State) : s.init.fb = Framebuffer.blank := rfl

@[simp] theorem State.pixel_init (s : State) (x : Fin 64) (y : Fin 32) : s.init.pixel x y = false :=
  Framebuffer.cell_blank x y

/-- `init` keeps two fields only, the model's `font` and `draws`, and `State.reset` holds its own (log 1, log 3). -/
theorem State.init_reset : State.reset.init = State.reset := rfl

/-- Settles O15: the vectors by the accessors' lemmas above, memory by `State.readByte_init`, and the elements that are a
single value by the definition of `init`. -/
theorem initLeavesTheResetValues : Obligations.InitLeavesTheResetValues :=
  ⟨fun s => ⟨s.readByte_init, s.reg_init, rfl, rfl, rfl, s.slot_init, rfl, rfl, s.keyDown_init, s.pixel_init, rfl, rfl⟩,
    State.init_reset⟩

end Sys2Proof.Machine
end

section
/-! PROOFS. The byte law of memory (spec/20_memory.md R33). -/

namespace Sys2Proof.Machine

/-- The frame of a byte write: `mem` is the only field it changes. -/
theorem State.writeByte_frame (s : State) (a : Nat) (x : Byte) :
    s.writeByte a x = { s with mem := (s.writeByte a x).mem } := rfl

/-- Settles O14: what a read gives after a write is `State.readByte_writeByte`, which rests on `Memory.read_write` and so
holds of every memory list; the rest is the frame. -/
theorem writeThenRead : Obligations.WriteThenRead :=
  fun s a b x => ⟨s.readByte_writeByte a b x, s.writeByte_frame a x⟩

end Sys2Proof.Machine
end

section
/-! PROOFS. The two-stage decoder against the opcode map (spec/30_encoding.md R49 to R52): what each row of the map
decodes to, and that a word no row matches is unknown. -/

namespace Sys2Proof.Machine

/-! ### A row of the map decodes to its instruction -/

/-- An encoding whose mask keeps the first nibble and the low byte. -/
theorem encodedBy_of_op_nn {mask bits : Word} {f : Word → Instr} (hm : opNibble mask = 15) (hn : fieldNN mask = 255)
    (h : ∀ w, opNibble w = opNibble bits → fieldNN w = fieldNN bits → decode w = .instr (f w)) : EncodedBy mask bits f :=
  fun w hw => h w (opNibble_of_mask hw hm) (fieldNN_of_mask hw hn)

/-- An encoding whose mask keeps every bit is of one word. -/
theorem encodedBy_of_word {bits : Word} {i : Instr} (h : decode bits = .instr i) :
    EncodedBy 0xFFFF bits (fun _ => i) := by
  intro w hw
  have hmask : w &&& 0xFFFF = w := BitVec.and_allOnes
  rw [← hmask, hw, h]

theorem encodedBy_cls : EncodedBy 0xFFFF 0x00E0 (fun _ => .cls) := encodedBy_of_word (by decide)
theorem encodedBy_ret : EncodedBy 0xFFFF 0x00EE (fun _ => .ret) := encodedBy_of_word (by decide)
theorem encodedBy_jp : EncodedBy 0xF000 0x1000 (fun w => .jp (fieldNNN w)) :=
  encodedBy_of_op rfl fun _ h => decode_op1 h
theorem encodedBy_call : EncodedBy 0xF000 0x2000 (fun w => .call (fieldNNN w)) :=
  encodedBy_of_op rfl fun _ h => decode_op2 h
theorem encodedBy_seImm : EncodedBy 0xF000 0x3000 (fun w => .seImm (fieldX w) (fieldNN w)) :=
  encodedBy_of_op rfl fun _ h => decode_op3 h
theorem encodedBy_sneImm : EncodedBy 0xF000 0x4000 (fun w => .sneImm (fieldX w) (fieldNN w)) :=
  encodedBy_of_op rfl fun _ h => decode_op4 h
theorem encodedBy_seReg : EncodedBy 0xF00F 0x5000 (fun w => .seReg (fieldX w) (fieldY w)) :=
  encodedBy_of_op_n rfl rfl fun w h (hn : fieldN w = 0x0) => by simp [decode_op5 h, decodeFamily5, hn]
theorem encodedBy_ldImm : EncodedBy 0xF000 0x6000 (fun w => .ldImm (fieldX w) (fieldNN w)) :=
  encodedBy_of_op rfl fun _ h => decode_op6 h
theorem encodedBy_addImm : EncodedBy 0xF000 0x7000 (fun w => .addImm (fieldX w) (fieldNN w)) :=
  encodedBy_of_op rfl fun _ h => decode_op7 h
theorem encodedBy_ldReg : EncodedBy 0xF00F 0x8000 (fun w => .ldReg (fieldX w) (fieldY w)) :=
  encodedBy_of_op_n rfl rfl fun w h (hn : fieldN w = 0x0) => by simp [decode_op8 h, decodeFamily8, hn]
theorem encodedBy_orReg : EncodedBy 0xF00F 0x8001 (fun w => .orReg (fieldX w) (fieldY w)) :=
  encodedBy_of_op_n rfl rfl fun w h (hn : fieldN w = 0x1) => by simp [decode_op8 h, decodeFamily8, hn]
theorem encodedBy_andReg : EncodedBy 0xF00F 0x8002 (fun w => .andReg (fieldX w) (fieldY w)) :=
  encodedBy_of_op_n rfl rfl fun w h (hn : fieldN w = 0x2) => by simp [decode_op8 h, decodeFamily8, hn]
theorem encodedBy_xorReg : EncodedBy 0xF00F 0x8003 (fun w => .xorReg (fieldX w) (fieldY w)) :=
  encodedBy_of_op_n rfl rfl fun w h (hn : fieldN w = 0x3) => by simp [decode_op8 h, decodeFamily8, hn]
theorem encodedBy_addReg : EncodedBy 0xF00F 0x8004 (fun w => .addReg (fieldX w) (fieldY w)) :=
  encodedBy_of_op_n rfl rfl fun w h (hn : fieldN w = 0x4) => by simp [decode_op8 h, decodeFamily8, hn]
theorem encodedBy_subReg : EncodedBy 0xF00F 0x8005 (fun w => .subReg (fieldX w) (fieldY w)) :=
  encodedBy_of_op_n rfl rfl fun w h (hn : fieldN w = 0x5) => by simp [decode_op8 h, decodeFamily8, hn]
theorem encodedBy_shr : EncodedBy 0xF00F 0x8006 (fun w => .shr (fieldX w) (fieldY w)) :=
  encodedBy_of_op_n rfl rfl fun w h (hn : fieldN w = 0x6) => by simp [decode_op8 h, decodeFamily8, hn]
theorem encodedBy_subn : EncodedBy 0xF00F 0x8007 (fun w => .subn (fieldX w) (fieldY w)) :=
  encodedBy_of_op_n rfl rfl fun w h (hn : fieldN w = 0x7) => by simp [decode_op8 h, decodeFamily8, hn]
theorem encodedBy_shl : EncodedBy 0xF00F 0x800E (fun w => .shl (fieldX w) (fieldY w)) :=
  encodedBy_of_op_n rfl rfl fun w h (hn : fieldN w = 0xE) => by simp [decode_op8 h, decodeFamily8, hn]
theorem encodedBy_sneReg : EncodedBy 0xF00F 0x9000 (fun w => .sneReg (fieldX w) (fieldY w)) :=
  encodedBy_of_op_n rfl rfl fun w h (hn : fieldN w = 0x0) => by simp [decode_op9 h, decodeFamily9, hn]
theorem encodedBy_ldI : EncodedBy 0xF000 0xA000 (fun w => .ldI (fieldNNN w)) :=
  encodedBy_of_op rfl fun _ h => decode_opA h
theorem encodedBy_jpV0 : EncodedBy 0xF000 0xB000 (fun w => .jpV0 (fieldNNN w)) :=
  encodedBy_of_op rfl fun _ h => decode_opB h
theorem encodedBy_rnd : EncodedBy 0xF000 0xC000 (fun w => .rnd (fieldX w) (fieldNN w)) :=
  encodedBy_of_op rfl fun _ h => decode_opC h
theorem encodedBy_drw : EncodedBy 0xF000 0xD000 (fun w => .drw (fieldX w) (fieldY w) (fieldN w)) :=
  encodedBy_of_op rfl fun _ h => decode_opD h
theorem encodedBy_skp : EncodedBy 0xF0FF 0xE09E (fun w => .skp (fieldX w)) :=
  encodedBy_of_op_nn rfl rfl fun w h (hnn : fieldNN w = 0x9E) => by simp [decode_opE h, decodeFamilyE, hnn]
theorem encodedBy_sknp : EncodedBy 0xF0FF 0xE0A1 (fun w => .sknp (fieldX w)) :=
  encodedBy_of_op_nn rfl rfl fun w h (hnn : fieldNN w = 0xA1) => by simp [decode_opE h, decodeFamilyE, hnn]
theorem encodedBy_ldVxDt : EncodedBy 0xF0FF 0xF007 (fun w => .ldVxDt (fieldX w)) :=
  encodedBy_of_op_nn rfl rfl fun w h (hnn : fieldNN w = 0x07) => by simp [decode_opF h, decodeFamilyF, hnn]
theorem encodedBy_ldVxKey : EncodedBy 0xF0FF 0xF00A (fun w => .ldVxKey (fieldX w)) :=
  encodedBy_of_op_nn rfl rfl fun w h (hnn : fieldNN w = 0x0A) => by simp [decode_opF h, decodeFamilyF, hnn]
theorem encodedBy_ldDtVx : EncodedBy 0xF0FF 0xF015 (fun w => .ldDtVx (fieldX w)) :=
  encodedBy_of_op_nn rfl rfl fun w h (hnn : fieldNN w = 0x15) => by simp [decode_opF h, decodeFamilyF, hnn]
theorem encodedBy_ldStVx : EncodedBy 0xF0FF 0xF018 (fun w => .ldStVx (fieldX w)) :=
  encodedBy_of_op_nn rfl rfl fun w h (hnn : fieldNN w = 0x18) => by simp [decode_opF h, decodeFamilyF, hnn]
theorem encodedBy_addI : EncodedBy 0xF0FF 0xF01E (fun w => .addI (fieldX w)) :=
  encodedBy_of_op_nn rfl rfl fun w h (hnn : fieldNN w = 0x1E) => by simp [decode_opF h, decodeFamilyF, hnn]
theorem encodedBy_ldFont : EncodedBy 0xF0FF 0xF029 (fun w => .ldFont (fieldX w)) :=
  encodedBy_of_op_nn rfl rfl fun w h (hnn : fieldNN w = 0x29) => by simp [decode_opF h, decodeFamilyF, hnn]
theorem encodedBy_ldBcd : EncodedBy 0xF0FF 0xF033 (fun w => .ldBcd (fieldX w)) :=
  encodedBy_of_op_nn rfl rfl fun w h (hnn : fieldNN w = 0x33) => by simp [decode_opF h, decodeFamilyF, hnn]
theorem encodedBy_storeRegs : EncodedBy 0xF0FF 0xF055 (fun w => .storeRegs (fieldX w)) :=
  encodedBy_of_op_nn rfl rfl fun w h (hnn : fieldNN w = 0x55) => by simp [decode_opF h, decodeFamilyF, hnn]
theorem encodedBy_loadRegs : EncodedBy 0xF0FF 0xF065 (fun w => .loadRegs (fieldX w)) :=
  encodedBy_of_op_nn rfl rfl fun w h (hnn : fieldNN w = 0x65) => by simp [decode_opF h, decodeFamilyF, hnn]

/-- The instruction that each row of the map gives a word, in the order of `opcodeTable`. -/
def opcodeInstrs : List (Word → Instr) :=
  [fun _ => .cls, fun _ => .ret, fun w => .jp (fieldNNN w), fun w => .call (fieldNNN w),
   fun w => .seImm (fieldX w) (fieldNN w), fun w => .sneImm (fieldX w) (fieldNN w),
   fun w => .seReg (fieldX w) (fieldY w), fun w => .ldImm (fieldX w) (fieldNN w),
   fun w => .addImm (fieldX w) (fieldNN w), fun w => .ldReg (fieldX w) (fieldY w),
   fun w => .orReg (fieldX w) (fieldY w), fun w => .andReg (fieldX w) (fieldY w),
   fun w => .xorReg (fieldX w) (fieldY w), fun w => .addReg (fieldX w) (fieldY w),
   fun w => .subReg (fieldX w) (fieldY w), fun w => .shr (fieldX w) (fieldY w),
   fun w => .subn (fieldX w) (fieldY w), fun w => .shl (fieldX w) (fieldY w),
   fun w => .sneReg (fieldX w) (fieldY w), fun w => .ldI (fieldNNN w), fun w => .jpV0 (fieldNNN w),
   fun w => .rnd (fieldX w) (fieldNN w), fun w => .drw (fieldX w) (fieldY w) (fieldN w), fun w => .skp (fieldX w),
   fun w => .sknp (fieldX w), fun w => .ldVxDt (fieldX w), fun w => .ldVxKey (fieldX w),
   fun w => .ldDtVx (fieldX w), fun w => .ldStVx (fieldX w), fun w => .addI (fieldX w),
   fun w => .ldFont (fieldX w), fun w => .ldBcd (fieldX w), fun w => .storeRegs (fieldX w),
   fun w => .loadRegs (fieldX w)]

/-- The rows of the map and the instructions, row by row (R51). -/
theorem opcodeTable_encodedBy : List.Forall₂ (fun r f => EncodedBy r.mask r.bits f) opcodeTable opcodeInstrs :=
  .cons encodedBy_cls <| .cons encodedBy_ret <| .cons encodedBy_jp <| .cons encodedBy_call <|
  .cons encodedBy_seImm <| .cons encodedBy_sneImm <| .cons encodedBy_seReg <| .cons encodedBy_ldImm <|
  .cons encodedBy_addImm <| .cons encodedBy_ldReg <| .cons encodedBy_orReg <| .cons encodedBy_andReg <|
  .cons encodedBy_xorReg <| .cons encodedBy_addReg <| .cons encodedBy_subReg <| .cons encodedBy_shr <|
  .cons encodedBy_subn <| .cons encodedBy_shl <| .cons encodedBy_sneReg <| .cons encodedBy_ldI <|
  .cons encodedBy_jpV0 <| .cons encodedBy_rnd <| .cons encodedBy_drw <| .cons encodedBy_skp <|
  .cons encodedBy_sknp <| .cons encodedBy_ldVxDt <| .cons encodedBy_ldVxKey <| .cons encodedBy_ldDtVx <|
  .cons encodedBy_ldStVx <| .cons encodedBy_addI <| .cons encodedBy_ldFont <| .cons encodedBy_ldBcd <|
  .cons encodedBy_storeRegs <| .cons encodedBy_loadRegs <| .nil

/-- Each instruction stands at the place of its row. -/
theorem rowNumber_opcodeInstrs (w : Word) : opcodeInstrs.map (fun f => (f w).rowNumber) = List.range opcodeTable.length :=
  rfl

/-- A word that a row matches decodes to an instruction of that row. -/
theorem decode_of_row {w : Word} {n : Nat} {r : Row} (hr : opcodeTable[n]? = some r) (hc : r.covers w = true) :
    ∃ i, decode w = .instr i ∧ i.rowNumber = n := by
  obtain ⟨hn, rfl⟩ := List.getElem?_eq_some_iff.mp hr
  have hn' : n < opcodeInstrs.length := hn
  have hdec : decode w = .instr (opcodeInstrs[n] w) := opcodeTable_encodedBy.get hn hn' w (eq_of_beq hc)
  have hrow := congrArg (·[n]?) (rowNumber_opcodeInstrs w)
  simp only [List.getElem?_map, List.getElem?_eq_getElem hn', List.getElem?_range hn] at hrow
  exact ⟨_, hdec, Option.some.inj hrow⟩

/-- No word is matched by two rows: each would be the row of the one instruction it decodes to. -/
theorem row_unique {w : Word} {n m : Nat} {r q : Row} (hr : opcodeTable[n]? = some r) (hq : opcodeTable[m]? = some q)
    (hcr : r.covers w = true) (hcq : q.covers w = true) : n = m := by
  obtain ⟨i, hi, rfl⟩ := decode_of_row hr hcr
  obtain ⟨j, hj, rfl⟩ := decode_of_row hq hcq
  rw [hi, Decoded.instr.injEq] at hj
  rw [hj]

/-! ### A word under a mask is the word of the fields the mask keeps -/

theorem and_mask_op (w : Word) : w &&& 0xF000 = formatFA (opNibble w) 0 := by
  have hmask : (0xF000 : Word) = BitVec.allOnes 4 ++ 0#12 := rfl
  conv_lhs => rw [word_eq_formatFA w, formatFA, hmask, BitVec.and_append, BitVec.and_allOnes, BitVec.and_zero]
  rfl

theorem and_mask_op_n (w : Word) : w &&& 0xF00F = formatFRR (opNibble w) 0 0 (fieldN w) := by
  have hmask : (0xF00F : Word) = BitVec.allOnes 4 ++ (0#4 ++ (0#4 ++ BitVec.allOnes 4 : BitVec 8) : BitVec 12) := rfl
  conv_lhs => rw [word_eq_formatFRR w, formatFRR, hmask, BitVec.and_append, BitVec.and_append, BitVec.and_append,
    BitVec.and_allOnes, BitVec.and_allOnes, BitVec.and_zero, BitVec.and_zero]
  rfl

theorem and_mask_op_nn (w : Word) : w &&& 0xF0FF = formatFR (opNibble w) 0 (fieldNN w) := by
  have hmask : (0xF0FF : Word) = BitVec.allOnes 4 ++ (0#4 ++ BitVec.allOnes 8 : BitVec 12) := rfl
  conv_lhs => rw [word_eq_formatFR w, formatFR, hmask, BitVec.and_append, BitVec.and_append,
    BitVec.and_allOnes, BitVec.and_allOnes, BitVec.and_zero]
  rfl

theorem and_mask_all (w : Word) : w &&& 0xFFFF = formatFR (opNibble w) (fieldX w) (fieldNN w) :=
  BitVec.and_allOnes.trans (word_eq_formatFR w)

/-! ### The fields of a word that no row matches -/

/-- The map has a row with this mask and these fixed bits. -/
abbrev HasRow (mask bits : Word) : Prop := ∃ r ∈ opcodeTable, r.mask = mask ∧ r.bits = bits

/-- A word that no row matches has the fixed bits of no row. -/
theorem and_mask_ne {w mask bits : Word} (hw : WellFormed w = false) (hr : HasRow mask bits) : w &&& mask ≠ bits := by
  rintro rfl
  obtain ⟨r, hmem, rfl, hbits⟩ := hr
  have hc : r.covers w = false := by simpa using List.any_eq_false.mp hw r hmem
  simp [Row.covers, hbits] at hc

theorem opNibble_not_mem {w : Word} {ops : List Nibble} (hw : WellFormed w = false)
    (hrows : ∀ op ∈ ops, HasRow 0xF000 (formatFA op 0)) : opNibble w ∉ ops :=
  fun h => and_mask_ne hw (hrows _ h) (and_mask_op w)

theorem fieldN_not_mem {w : Word} {op : Nibble} {ns : List Nibble} (hw : WellFormed w = false) (hop : opNibble w = op)
    (hrows : ∀ n ∈ ns, HasRow 0xF00F (formatFRR op 0 0 n)) : fieldN w ∉ ns :=
  fun h => and_mask_ne hw (hrows _ h) (hop ▸ and_mask_op_n w)

theorem fieldNN_not_mem {w : Word} {op : Nibble} {nns : List Byte} (hw : WellFormed w = false) (hop : opNibble w = op)
    (hrows : ∀ nn ∈ nns, HasRow 0xF0FF (formatFR op 0 nn)) : fieldNN w ∉ nns :=
  fun h => and_mask_ne hw (hrows _ h) (hop ▸ and_mask_op_nn w)

theorem fieldNN_not_mem_of_x {w : Word} {op : Nibble} {x : RegIdx} {nns : List Byte} (hw : WellFormed w = false)
    (hop : opNibble w = op) (hx : fieldX w = x) (hrows : ∀ nn ∈ nns, HasRow 0xFFFF (formatFR op x nn)) :
    fieldNN w ∉ nns :=
  fun h => and_mask_ne hw (hrows _ h) (hop ▸ hx ▸ and_mask_all w)

/-! ### Where the second stage finds nothing (R49, R52) -/

theorem decodeFamily0_unknown {w : Word} (h : nibbleX w = 0x0 → fieldNN w ∉ ([0xE0, 0xEE] : List Byte)) :
    decodeFamily0 w = .unknown w := by
  have hCls : ¬(nibbleX w = 0x0 ∧ fieldNN w = 0xE0) := fun ⟨hx, hnn⟩ => h hx (by simp [hnn])
  have hRet : ¬(nibbleX w = 0x0 ∧ fieldNN w = 0xEE) := fun ⟨hx, hnn⟩ => h hx (by simp [hnn])
  rw [decodeFamily0, if_neg hCls, if_neg hRet]

theorem decodeFamily5_unknown {w : Word} (h : fieldN w ∉ ([0x0] : List Nibble)) : decodeFamily5 w = .unknown w := by
  simp_all [decodeFamily5]

theorem decodeFamily8_unknown {w : Word}
    (h : fieldN w ∉ ([0x0, 0x1, 0x2, 0x3, 0x4, 0x5, 0x6, 0x7, 0xE] : List Nibble)) : decodeFamily8 w = .unknown w := by
  simp_all [decodeFamily8]

theorem decodeFamily9_unknown {w : Word} (h : fieldN w ∉ ([0x0] : List Nibble)) : decodeFamily9 w = .unknown w := by
  simp_all [decodeFamily9]

theorem decodeFamilyE_unknown {w : Word} (h : fieldNN w ∉ ([0x9E, 0xA1] : List Byte)) :
    decodeFamilyE w = .unknown w := by
  simp_all [decodeFamilyE]

theorem decodeFamilyF_unknown {w : Word}
    (h : fieldNN w ∉ ([0x07, 0x0A, 0x15, 0x18, 0x1E, 0x29, 0x33, 0x55, 0x65] : List Byte)) :
    decodeFamilyF w = .unknown w := by
  simp_all [decodeFamilyF]

/-- The first nibble decides by itself, or it is that of one of the six families with a second stage (R49). -/
theorem nibble_direct_or_shared (n : Nibble) :
    n ∈ ([0x1, 0x2, 0x3, 0x4, 0x6, 0x7, 0xA, 0xB, 0xC, 0xD] : List Nibble) ∨
      n = 0x0 ∨ n = 0x5 ∨ n = 0x8 ∨ n = 0x9 ∨ n = 0xE ∨ n = 0xF := by
  revert n; decide

/-- A word that no row of the map matches is unknown. -/
theorem decode_of_not_wellFormed {w : Word} (hw : WellFormed w = false) : decode w = .unknown w := by
  obtain hop | hop | hop | hop | hop | hop | hop := nibble_direct_or_shared (opNibble w)
  · exact absurd hop (opNibble_not_mem hw (by decide))
  · have hnn (hx : nibbleX w = 0x0) : fieldNN w ∉ ([0xE0, 0xEE] : List Byte) :=
      fieldNN_not_mem_of_x hw hop (congrArg BitVec.toFin hx) (by decide)
    exact (decode_op0 hop).trans (decodeFamily0_unknown hnn)
  · exact (decode_op5 hop).trans (decodeFamily5_unknown (fieldN_not_mem hw hop (by decide)))
  · exact (decode_op8 hop).trans (decodeFamily8_unknown (fieldN_not_mem hw hop (by decide)))
  · exact (decode_op9 hop).trans (decodeFamily9_unknown (fieldN_not_mem hw hop (by decide)))
  · exact (decode_opE hop).trans (decodeFamilyE_unknown (fieldNN_not_mem hw hop (by decide)))
  · exact (decode_opF hop).trans (decodeFamilyF_unknown (fieldNN_not_mem hw hop (by decide)))

/-! ### The obligations -/

/-- Settles O4: a row's word by `opcodeTable_encodedBy`, a word of no row by the fields it cannot have, and that no two rows
match one word because `decode` gives it one instruction. -/
theorem decodeFollowsTheMap : Obligations.DecodeFollowsTheMap :=
  fun _ => ⟨fun _ _ => decode_of_row, decode_of_not_wellFormed, fun _ _ _ _ => row_unique⟩

/-- Settles O1: each instruction by the encoding of its row, and the three unknown words because no row matches them. -/
theorem sampleWordsDecode : Obligations.SampleWordsDecode :=
  ⟨encodedBy_cls _ rfl, encodedBy_call _ rfl, encodedBy_seImm _ rfl, encodedBy_shr _ rfl, encodedBy_ldI _ rfl,
    encodedBy_drw _ rfl, encodedBy_sknp _ rfl, encodedBy_storeRegs _ rfl,
    decode_of_not_wellFormed (by decide), decode_of_not_wellFormed (by decide), decode_of_not_wellFormed (by decide)⟩

end Sys2Proof.Machine
end

section
/-! PROOFS. One step and the helpers that advance pc (spec/40_cycle.md R58, R60). -/

namespace Sys2Proof.Machine

/-! ### A step, by what the word at pc decodes to (R58) -/

/-- The events are all that the start of a step changes. -/
theorem State.beginStep_frame (s : State) : s.beginStep = { s with events := [] } := rfl

theorem step_of_instr {s t : State} {i : Instr} (hd : decode s.fetch = .instr i)
    (hx : exec i s.beginStep = .next t) : step s = .next t.tick := by
  simp only [step, hd, hx, finishStep]

theorem step_of_unknown {s : State} {w : Word} (hd : decode s.fetch = .unknown w) :
    step s = .next (s.beginStep.unknownOpcode w).tick := by
  simp only [step, hd, finishStep]

/-- Settles O6: one rule for each answer of the decoder, and the frame of `State.beginStep`. -/
theorem stepRunsTheDecodedInstruction : Obligations.StepRunsTheDecodedInstruction :=
  fun s => ⟨fun _ _ => step_of_instr, fun _ => step_of_unknown, s.beginStep_frame⟩

/-! ### Where pc goes (R60; the wrap is D2, log 7) -/

theorem toNat_nextPc (pc : Word) : (nextPc pc).toNat = (pc.toNat + 2) % 65536 := BitVec.toNat_add pc 2

@[simp] theorem skipPc_false (pc : Word) : skipPc false pc = nextPc pc := rfl

@[simp] theorem skipPc_true (pc : Word) : skipPc true pc = pc + 4 := rfl

theorem toNat_skipPc_true (pc : Word) : (skipPc true pc).toNat = (pc.toNat + 4) % 65536 := by
  rw [skipPc_true]
  exact BitVec.toNat_add pc 4

/-- Settles O8: both sums are of 16-bit words, so the wrap is that of the addition. -/
theorem nextAndSkipAdvance : Obligations.NextAndSkipAdvance :=
  fun pc => ⟨toNat_nextPc pc, skipPc_false pc, toNat_skipPc_true pc⟩

end Sys2Proof.Machine
end

section
/-! PROOFS. Control flow (spec/41_flow.md): return, call, the skips on an immediate and the jump by V0. -/

namespace Sys2Proof.Machine

/-! ### The stack pointer as a number (R18; the wrap is D4, log 9) -/

theorem State.val_popped_sp (s : State) : s.popped.sp.val = (s.sp.val + 15) % 16 := by
  rw [State.popped_sp, Fin.val_sub]
  exact congrArg (· % 16) (Nat.add_comm 15 s.sp.val)

theorem State.val_push_sp (s : State) (a : Word) : (s.push a).sp.val = (s.sp.val + 1) % 16 := Fin.val_add s.sp 1

/-! ### Frames -/

theorem keepsAllButPc_setPc (s : State) (a : Word) : KeepsAllButPc s (s.setPc a) := keepsAllButPc_of_eq rfl

/-- A state that differs in pc, sp and the stack only: the frame of a call and of a return. -/
theorem keepsAllButPcStack_of_eq {s t : State} (h : t = { s with pc := t.pc, sp := t.sp, stack := t.stack }) :
    KeepsRegsBut [] s t ∧ KeepsMemory s t ∧ KeepsIndex s t ∧ KeepsTimers s t ∧ KeepsKeys s t ∧ KeepsDisplay s t := by
  rw [h]
  exact ⟨fun _ _ => rfl, fun _ => rfl, rfl, ⟨rfl, rfl⟩, fun _ => rfl, ⟨fun _ _ => rfl, rfl⟩⟩

/-! ### What each instruction answers -/

theorem exec_ret (s : State) : exec .ret s = .next (s.popped.setPc (nextPc (s.slot s.popped.sp))) := rfl

theorem exec_call (nnn : Addr12) (s : State) : exec (.call nnn) s = .next ((s.push s.pc).setPc (immAddr nnn)) := rfl

theorem exec_seImm (x : RegIdx) (nn : Byte) (s : State) :
    exec (.seImm x nn) s = .next (s.setPc (skipPc (s.reg x == nn) s.pc)) := rfl

theorem exec_sneImm (x : RegIdx) (nn : Byte) (s : State) :
    exec (.sneImm x nn) s = .next (s.setPc (skipPc (s.reg x != nn) s.pc)) :=
  congrArg (fun c => Host.Outcome.next (s.setPc (skipPc c s.pc))) decide_not

theorem exec_jpV0 (nnn : Addr12) (s : State) :
    exec (.jpV0 nnn) s = .next (s.setPc (jumpTarget nnn (s.reg 0))) := rfl

/-! ### The obligations -/

/-- Settles O19: a return moves sp and pc and writes no slot. -/
theorem retResult : Obligations.RetResult :=
  fun s => ⟨_, exec_ret s, s.val_popped_sp, rfl, s.popped_slot, keepsAllButPcStack_of_eq rfl⟩

/-- Settles O21: the slot written is the one `State.slot_push` names, and NNN fits in the 16 bits of pc. -/
theorem callResult : Obligations.CallResult :=
  fun nnn s => ⟨_, exec_call nnn s, s.slot_push s.pc, s.val_push_sp s.pc, toNat_immAddr nnn,
    keepsAllButPcStack_of_eq rfl⟩

/-- Settles O23: both skips write pc only, and their encodings are rows of the opcode map. -/
theorem skipImmediateResult : Obligations.SkipImmediateResult :=
  ⟨encodedBy_seImm, encodedBy_sneImm, fun x nn s =>
    ⟨⟨_, exec_seImm x nn s, rfl, keepsAllButPc_setPc s _⟩, ⟨_, exec_sneImm x nn s, rfl, keepsAllButPc_setPc s _⟩⟩⟩

/-- Settles O25: a 12-bit address and a byte have a sum below 2^16, by `toNat_jumpTarget`. -/
theorem jpV0Result : Obligations.JpV0Result :=
  fun nnn s => ⟨_, exec_jpV0 nnn s, toNat_jumpTarget nnn (s.reg 0), keepsAllButPc_setPc s _⟩

end Sys2Proof.Machine
end

section
/-! PROOFS. Register loads and arithmetic (spec/42_alu.md): every instruction of the family is one of the two shared
writes, `State.putReg` or `State.putRegFlag`, of a result whose value is a law of bytes (R73). -/

namespace Sys2Proof.Machine

/-! ### The two shared writes (R61) -/

theorem State.reg_putReg_self (s : State) (x : RegIdx) (b : Byte) : (s.putReg x b).reg x = b := s.reg_setReg_self x b

/-- The frame of a write without a flag: VX and pc only. -/
theorem State.putReg_frame (s : State) (x : RegIdx) (b : Byte) :
    KeepsRegsBut [x] s (s.putReg x b) ∧ (s.putReg x b).pc = nextPc s.pc ∧ KeepsAllButRegs s (s.putReg x b) :=
  ⟨keepsRegsBut_setReg s x b, rfl, keepsAllButRegs_of_eq rfl⟩

/-- A write with a flag: VF holds the flag even when X = F (C3), VX the result otherwise, and nothing else but pc is
written. -/
theorem State.putRegFlag_spec (s : State) (x : RegIdx) {b f : Byte} {m n : Nat} (hf : f.toNat = n) (hb : b.toNat = m) :
    ((s.putRegFlag x b f).reg flagReg).toNat = n ∧ (x ≠ flagReg → ((s.putRegFlag x b f).reg x).toNat = m) ∧
    KeepsRegsBut [x, flagReg] s (s.putRegFlag x b f) ∧ (s.putRegFlag x b f).pc = nextPc s.pc ∧
    KeepsAllButRegs s (s.putRegFlag x b f) := by
  have hflag : (s.putRegFlag x b f).reg flagReg = f := (s.setReg x b).reg_setReg_self flagReg f
  have hres : x ≠ flagReg → (s.putRegFlag x b f).reg x = b := s.reg_setReg_flag b f
  exact ⟨by rw [hflag, hf], fun hx => by rw [hres hx, hb], keepsRegsBut_setReg_flag s x b f, rfl,
    keepsAllButRegs_of_eq rfl⟩

/-! ### Results and flags as numbers (R73) -/

theorem toNat_sub_byte (a b : Byte) : (a - b).toNat = (a.toNat + 256 - b.toNat) % 256 := by
  have := b.isLt
  rw [BitVec.toNat_sub]
  omega

theorem toNat_shiftRight_one (a : Byte) : (a >>> 1).toNat = a.toNat / 2 := by
  rw [BitVec.toNat_ushiftRight, Nat.shiftRight_eq_div_pow, pow_one]

theorem toNat_shiftLeft_one (a : Byte) : (a <<< 1).toNat = a.toNat * 2 % 256 := by
  rw [BitVec.toNat_shiftLeft, Nat.shiftLeft_eq, pow_one]

theorem toNat_carryFlag (a b : Byte) : (carryFlag a b).toNat = if a.toNat + b.toNat > 0xFF then 1 else 0 := by
  simp only [carryFlag, toNat_flagByte, decide_eq_true_eq]

theorem toNat_shiftedOutRight (a : Byte) : (shiftedOutRight a).toNat = a.toNat % 2 :=
  (BitVec.toNat_and a 1).trans (Nat.and_one_is_mod a.toNat)

theorem toNat_shiftedOutLeft (a : Byte) : (shiftedOutLeft a).toNat = a.toNat / 128 := by
  rw [shiftedOutLeft, BitVec.toNat_ushiftRight, Nat.shiftRight_eq_div_pow]

/-! ### What each instruction answers -/

theorem exec_ldImm (x : RegIdx) (nn : Byte) (s : State) : exec (.ldImm x nn) s = .next (s.putReg x nn) := rfl

theorem exec_addImm (x : RegIdx) (nn : Byte) (s : State) :
    exec (.addImm x nn) s = .next (s.putReg x (s.reg x + nn)) := rfl

theorem exec_ldReg (x y : RegIdx) (s : State) : exec (.ldReg x y) s = .next (s.putReg x (s.reg y)) := rfl

theorem exec_orReg (x y : RegIdx) (s : State) :
    exec (.orReg x y) s = .next (s.putReg x (s.reg x ||| s.reg y)) := rfl

theorem exec_andReg (x y : RegIdx) (s : State) :
    exec (.andReg x y) s = .next (s.putReg x (s.reg x &&& s.reg y)) := rfl

theorem exec_xorReg (x y : RegIdx) (s : State) :
    exec (.xorReg x y) s = .next (s.putReg x (s.reg x ^^^ s.reg y)) := rfl

theorem exec_addReg (x y : RegIdx) (s : State) :
    exec (.addReg x y) s = .next (s.putRegFlag x (s.reg x + s.reg y) (carryFlag (s.reg x) (s.reg y))) := rfl

theorem exec_subReg (x y : RegIdx) (s : State) :
    exec (.subReg x y) s = .next (s.putRegFlag x (s.reg x - s.reg y) (noBorrowFlag (s.reg x) (s.reg y))) := rfl

theorem exec_shr (x y : RegIdx) (s : State) :
    exec (.shr x y) s = .next (s.putRegFlag x (s.reg x >>> 1) (shiftedOutRight (s.reg x))) := rfl

theorem exec_subn (x y : RegIdx) (s : State) :
    exec (.subn x y) s = .next (s.putRegFlag x (s.reg y - s.reg x) (noBorrowFlag (s.reg y) (s.reg x))) := rfl

theorem exec_shl (x y : RegIdx) (s : State) :
    exec (.shl x y) s = .next (s.putRegFlag x (s.reg x <<< 1) (shiftedOutLeft (s.reg x))) := rfl

theorem exec_rnd (x : RegIdx) (nn : Byte) (s : State) :
    exec (.rnd x nn) s = .next (s.advanceDraws.putReg x (Config.randByte s.draws &&& nn)) := rfl

/-! ### The obligations -/

/-- Settles O28: the sum wraps, and the write is one without a flag. -/
theorem addImmResult : Obligations.AddImmResult := by
  intro x nn s
  refine ⟨_, exec_addImm x nn s, ?_, s.putReg_frame x _⟩
  rw [State.reg_putReg_self]
  exact BitVec.toNat_add (s.reg x) nn

/-- Settles O30: each operation acts on each bit alone, and the write is one without a flag. -/
theorem logicResult : Obligations.LogicResult := by
  intro x y s
  refine ⟨⟨_, exec_orReg x y s, fun b _ => ?_, s.putReg_frame x _⟩,
    ⟨_, exec_andReg x y s, fun b _ => ?_, s.putReg_frame x _⟩,
    ⟨_, exec_xorReg x y s, fun b _ => ?_, s.putReg_frame x _⟩⟩
  · rw [State.reg_putReg_self, BitVec.getLsbD_or]
  · rw [State.reg_putReg_self, BitVec.getLsbD_and]
  · rw [State.reg_putReg_self, BitVec.getLsbD_xor]

/-- Settles O31: the wrapped sum and the carry of the exact one, written by `State.putRegFlag`. -/
theorem addRegResult : Obligations.AddRegResult :=
  ⟨encodedBy_addReg, fun x y s => ⟨_, exec_addReg x y s,
    s.putRegFlag_spec x (toNat_carryFlag _ _) (BitVec.toNat_add _ _)⟩⟩

/-- Settles O32: the same difference and the same flag twice, with the operands exchanged. -/
theorem subtractResult : Obligations.SubtractResult :=
  ⟨encodedBy_subReg, encodedBy_subn, fun x y s =>
    ⟨⟨_, exec_subReg x y s, s.putRegFlag_spec x (toNat_noBorrowFlag _ _) (toNat_sub_byte _ _)⟩,
      ⟨_, exec_subn x y s, s.putRegFlag_spec x (toNat_noBorrowFlag _ _) (toNat_sub_byte _ _)⟩⟩⟩

/-- Settles O33: half and double VX, with the bit each loses. -/
theorem shiftResult : Obligations.ShiftResult :=
  fun x y s =>
    ⟨⟨_, exec_shr x y s, s.putRegFlag_spec x (toNat_shiftedOutRight _) (toNat_shiftRight_one _)⟩,
      ⟨_, exec_shl x y s, s.putRegFlag_spec x (toNat_shiftedOutLeft _) (toNat_shiftLeft_one _)⟩⟩

/-- Settles O27: an immediate written without a flag. -/
theorem ldImmResult : Obligations.LdImmResult :=
  ⟨encodedBy_ldImm, fun x nn s => ⟨_, exec_ldImm x nn s, s.reg_putReg_self x nn, s.putReg_frame x nn⟩⟩

/-- Settles O29: a register's value written without a flag. -/
theorem ldRegResult : Obligations.LdRegResult :=
  ⟨encodedBy_ldReg, fun x y s => ⟨_, exec_ldReg x y s, s.reg_putReg_self x _, s.putReg_frame x _⟩⟩

/-- Settles O34: the mask clears a bit whatever the draw; the count of draws is read by no clause of the frame, so the
frame of the write from the counted state is that from `s`. -/
theorem rndResult : Obligations.RndResult := by
  intro x nn s
  have hreg := s.advanceDraws.reg_putReg_self x (Config.randByte s.draws &&& nn)
  refine ⟨_, exec_rnd x nn s, hreg, fun b hb => ?_, rfl, s.advanceDraws.putReg_frame x _⟩
  rw [hreg, BitVec.getLsbD_and, hb, Bool.and_false]

end Sys2Proof.Machine
end

section
/-! PROOFS. Index register and memory transfer (spec/43_index_memory.md): what ANNN, FX1E, FX29, FX33 and FX55 write, and
one frame for each set of them that writes the same elements. -/

namespace Sys2Proof.Machine

/-! ### Bytes written and registers stored -/

/-- Bytes written at `a` and on read back there, and every byte elsewhere as before, as long as they do not lap the
space. -/
theorem State.readByte_writeBytes_self (a : Nat) (xs : List Byte) (s : State) (hlen : xs.length ≤ 4096) :
    (∀ (k : Nat) (h : k < xs.length), (State.writeBytes a xs s).readByte (a + k) = xs[k]) ∧
    (∀ b, (∀ k, k < xs.length → b % 4096 ≠ (a + k) % 4096) → (State.writeBytes a xs s).readByte b = s.readByte b) :=
  ⟨fun k h => (State.readByte_writeBytes a xs s hlen (a + k)).1 k h rfl,
    fun b => (State.readByte_writeBytes a xs s hlen b).2⟩

/-- What memory reads as after V0 to VX are stored, by register. -/
theorem State.readByte_storeRegs (i : Nat) (x : RegIdx) (s : State) :
    (∀ k : RegIdx, k ≤ x → (State.storeRegsUpTo i (x.val + 1) s).readByte (i + k.val) = s.reg k) ∧
    (∀ a, (∀ k : RegIdx, k ≤ x → a % 4096 ≠ (i + k.val) % 4096) →
      (State.storeRegsUpTo i (x.val + 1) s).readByte a = s.readByte a) := by
  have hx : x.val + 1 ≤ 16 := x.isLt
  obtain ⟨hstored, hother⟩ := State.readByte_storeRegsUpTo i (x.val + 1) hx s
  refine ⟨fun k hk => hstored k (Nat.lt_succ_of_le hk), fun a ha => hother a fun k hk => ?_⟩
  exact ha ⟨k, hk.trans_le hx⟩ (Nat.le_of_lt_succ hk)

theorem State.pc_storeRegsUpTo (i n : Nat) (s : State) : (State.storeRegsUpTo i n s).pc = s.pc := by
  rw [State.storeRegsUpTo_frame]

/-! ### The values written -/

/-- I after FX1E: the exact sum, reduced (R88; the wrap is D3, log 8). -/
theorem toNat_indexSum (i : Word) (vx : Byte) :
    (BitVec.ofNat 16 (indexSum i vx)).toNat = (i.toNat + vx.toNat) % 65536 := BitVec.toNat_ofNat _ _

theorem toNat_indexFlag (sum : Nat) : (indexFlag sum).toNat = if sum > 0xFFF then 1 else 0 := by
  simp only [indexFlag, toNat_flagByte, decide_eq_true_eq]

/-- The bytes that FX33 writes, in the order of their addresses (R90). -/
def bcdDigits (vx : Byte) : List Byte := [hundreds vx, tens vx, units vx]

/-- The digits stand at I, I + 1 and I + 2, and every byte elsewhere is as before (R90). -/
theorem State.readByte_bcdDigits (a : Nat) (vx : Byte) (s : State) :
    (State.writeBytes a (bcdDigits vx) s).readByte a = hundreds vx ∧
    (State.writeBytes a (bcdDigits vx) s).readByte (a + 1) = tens vx ∧
    (State.writeBytes a (bcdDigits vx) s).readByte (a + 2) = units vx ∧
    (∀ b, (∀ k, k < 3 → b % 4096 ≠ (a + k) % 4096) →
      (State.writeBytes a (bcdDigits vx) s).readByte b = s.readByte b) := by
  have hlen : (bcdDigits vx).length = 3 := rfl
  obtain ⟨hdigit, hother⟩ := State.readByte_writeBytes_self a (bcdDigits vx) s (by omega)
  exact ⟨hdigit 0 (by omega), hdigit 1 (by omega), hdigit 2 (by omega), hother⟩

/-! ### Frames -/

/-- A state that differs in I, pc and memory only: the frame of FX33 and FX55. -/
theorem keepsAllButIndexMemory_of_eq {s t : State} (h : t = { s with i := t.i, pc := t.pc, mem := t.mem }) :
    KeepsRegsBut [] s t ∧ KeepsStack s t ∧ KeepsTimers s t ∧ KeepsKeys s t ∧ KeepsDisplay s t := by
  rw [h]
  exact ⟨fun _ _ => rfl, ⟨rfl, fun _ => rfl⟩, ⟨rfl, rfl⟩, fun _ => rfl, ⟨fun _ _ => rfl, rfl⟩⟩

/-- I and pc written and nothing else: the frame of ANNN and FX29, and of FX1E but for its flag. -/
theorem keepsAllButIndex_setI (s : State) (a p : Word) :
    KeepsRegsBut [] s ((s.setI a).setPc p) ∧ KeepsMemory s ((s.setI a).setPc p) ∧
    KeepsStack s ((s.setI a).setPc p) ∧ KeepsTimers s ((s.setI a).setPc p) ∧ KeepsKeys s ((s.setI a).setPc p) ∧
    KeepsDisplay s ((s.setI a).setPc p) := by
  obtain ⟨hregs, hrest⟩ := keepsAllButIndexMemory_of_eq (s := s) (t := (s.setI a).setPc p) rfl
  exact ⟨hregs, fun _ => rfl, hrest⟩

/-! ### What each instruction answers -/

theorem exec_ldI (nnn : Addr12) (s : State) :
    exec (.ldI nnn) s = .next ((s.setI (immAddr nnn)).setPc (nextPc s.pc)) := rfl

theorem exec_addI (x : RegIdx) (s : State) :
    exec (.addI x) s = .next (((s.setI (BitVec.ofNat 16 (indexSum s.i (s.reg x)))).setReg flagReg
      (indexFlag (indexSum s.i (s.reg x)))).setPc (nextPc s.pc)) := rfl

theorem exec_ldFont (x : RegIdx) (s : State) :
    exec (.ldFont x) s = .next ((s.setI (glyphAddr (s.reg x))).setPc (nextPc s.pc)) := rfl

theorem exec_ldBcd (x : RegIdx) (s : State) :
    exec (.ldBcd x) s = .next ((State.writeBytes s.i.toNat (bcdDigits (s.reg x)) s).setPc (nextPc s.pc)) := rfl

theorem exec_storeRegs (x : RegIdx) (s : State) :
    exec (.storeRegs x) s =
      .next (((State.storeRegsUpTo s.i.toNat (x.val + 1) s).setI (indexAfter s.i x)).setPc (nextPc s.pc)) := by
  rw [← State.pc_storeRegsUpTo s.i.toNat (x.val + 1) s]
  rfl

/-! ### The obligations -/

/-- Settles O36: the sum wraps and its flag does not, and VF reads the flag because it is written last; the frame is that
of the write of I, since the flag changes registers only. -/
theorem addIResult : Obligations.AddIResult := by
  intro x s
  have hregs := keepsRegsBut_setReg (s.setI (BitVec.ofNat 16 (indexSum s.i (s.reg x)))) flagReg
    (indexFlag (indexSum s.i (s.reg x)))
  obtain ⟨-, hrest⟩ := keepsAllButIndex_setI s (BitVec.ofNat 16 (indexSum s.i (s.reg x))) (nextPc s.pc)
  refine ⟨_, exec_addI x s, toNat_indexSum s.i (s.reg x), ?_, hregs, rfl, hrest⟩
  rw [State.setPc_reg, State.reg_setReg_self, toNat_indexFlag, indexSum]

/-- Settles O38: FX33 writes a list of three bytes and nothing else, and each digit is below 256. -/
theorem ldBcdResult : Obligations.LdBcdResult := by
  intro x s
  obtain ⟨hhundreds, htens, hunits, hother⟩ := s.readByte_bcdDigits s.i.toNat (s.reg x)
  obtain ⟨hregs, hrest⟩ := keepsAllButIndexMemory_of_eq (s := s)
    (t := (State.writeBytes s.i.toNat (bcdDigits (s.reg x)) s).setPc (nextPc s.pc)) rfl
  refine ⟨_, exec_ldBcd x s, ?_, ?_, ?_, hother, rfl, hregs, rfl, hrest⟩
  · rw [State.setPc_readByte, hhundreds, toNat_hundreds]
  · rw [State.setPc_readByte, htens, toNat_tens]
  · rw [State.setPc_readByte, hunits, toNat_units]

/-- Settles O39: the stored block by `State.readByte_storeRegs`, and the frame because the block is in memory only. -/
theorem storeRegsResult : Obligations.StoreRegsResult := by
  intro x s
  obtain ⟨hstored, hother⟩ := State.readByte_storeRegs s.i.toNat x s
  have hframe := congrArg (fun u : State => (u.setI (indexAfter s.i x)).setPc (nextPc s.pc))
    (State.storeRegsUpTo_frame s.i.toNat (x.val + 1) s)
  exact ⟨_, exec_storeRegs x s, hstored, hother, toNat_indexAfter s.i x, rfl, keepsAllButIndexMemory_of_eq hframe⟩

/-- Settles O35: NNN fits in the 16 bits of I, and its encoding is a row of the opcode map. -/
theorem ldIResult : Obligations.LdIResult :=
  ⟨encodedBy_ldI, fun nnn s =>
    ⟨_, exec_ldI nnn s, toNat_immAddr nnn, rfl, keepsAllButIndex_setI s (immAddr nnn) (nextPc s.pc)⟩⟩

/-- Settles O37: five times a byte fits in the 16 bits of I, by `toNat_glyphAddr`. -/
theorem ldFontResult : Obligations.LdFontResult := by
  intro x s
  obtain ⟨hregs, hrest⟩ := keepsAllButIndex_setI s (glyphAddr (s.reg x)) (nextPc s.pc)
  exact ⟨_, exec_ldFont x s, toNat_glyphAddr (s.reg x), hregs, rfl, hrest⟩

end Sys2Proof.Machine
end

section
/-! PROOFS. Display (spec/44_display.md): what 00E0 answers, and the frame of presenting a framebuffer. -/

namespace Sys2Proof.Machine

/-- A state that differs in pc, the framebuffer and the redraw flag only: the frame of 00E0. -/
theorem keepsAllButPcDisplay_of_eq {s t : State} (h : t = { s with pc := t.pc, fb := t.fb, redraw := t.redraw }) :
    KeepsRegsBut [] s t ∧ KeepsMemory s t ∧ KeepsIndex s t ∧ KeepsStack s t ∧ KeepsTimers s t ∧ KeepsKeys s t := by
  rw [h]
  exact ⟨fun _ _ => rfl, fun _ => rfl, rfl, ⟨rfl, fun _ => rfl⟩, ⟨rfl, rfl⟩, fun _ => rfl⟩

theorem exec_cls (s : State) :
    exec .cls s = .next ((s.present Framebuffer.blank).setPc (nextPc s.pc)) := rfl

/-- Settles O43: 00E0 presents the blank framebuffer, whose cells are 0 by `Framebuffer.cell_blank`; `State.present` sets
the redraw flag whatever the screen was (D10). -/
theorem clsResult : Obligations.ClsResult :=
  fun s => ⟨_, exec_cls s, Framebuffer.cell_blank, rfl, rfl, keepsAllButPcDisplay_of_eq rfl⟩

end Sys2Proof.Machine
end

section
/-! PROOFS. Keypad and timers (spec/45_keys_timers.md): what EX9E, EXA1, FX07, FX15 and FX18 answer, and what the tick
that closes their step (R110) then makes of the timers. -/

namespace Sys2Proof.Machine

/-! ### The tick, field by field (R110, R111) -/

theorem State.tick_reg (s : State) (r : RegIdx) : s.tick.reg r = s.reg r := by
  rw [State.tick_eq]
  rfl

theorem State.toNat_tick_dt (s : State) : s.tick.dt.toNat = s.dt.toNat - 1 := by
  rw [State.tick_eq]
  exact timer_down s.dt

theorem State.toNat_tick_st (s : State) : s.tick.st.toNat = s.st.toNat - 1 := by
  rw [State.tick_eq]
  exact timer_down s.st

theorem State.tick_events (s : State) :
    s.tick.events = s.events ++ (if s.st.toNat = 1 then [.beep] else []) := by
  have hone : s.st = 1#8 ↔ s.st.toNat = 1 := BitVec.toNat_inj.symm
  rw [State.tick_eq]
  simp only [hone]

/-! ### Frames -/

/-- A state that differs in pc and the timers only: the frame of FX15 and FX18. -/
theorem keepsAllButPcTimers_of_eq {s t : State} (h : t = { s with pc := t.pc, dt := t.dt, st := t.st }) :
    KeepsRegsBut [] s t ∧ KeepsMemory s t ∧ KeepsIndex s t ∧ KeepsStack s t ∧ KeepsKeys s t ∧ KeepsDisplay s t := by
  rw [h]
  exact ⟨fun _ _ => rfl, fun _ => rfl, rfl, ⟨rfl, fun _ => rfl⟩, fun _ => rfl, ⟨fun _ _ => rfl, rfl⟩⟩

/-! ### What each instruction answers -/

theorem exec_skp (x : RegIdx) (s : State) :
    exec (.skp x) s = .next (s.setPc (skipPc (s.keyDown (keyIndex (s.reg x))) s.pc)) := rfl

theorem exec_sknp (x : RegIdx) (s : State) :
    exec (.sknp x) s = .next (s.setPc (skipPc (!s.keyDown (keyIndex (s.reg x))) s.pc)) := rfl

theorem exec_ldVxDt (x : RegIdx) (s : State) : exec (.ldVxDt x) s = .next (s.putReg x s.dt) := rfl

theorem exec_ldDtVx (x : RegIdx) (s : State) :
    exec (.ldDtVx x) s = .next ((s.setDt (s.reg x)).setPc (nextPc s.pc)) := rfl

theorem exec_ldStVx (x : RegIdx) (s : State) :
    exec (.ldStVx x) s = .next ((s.setSt (s.reg x)).setPc (nextPc s.pc)) := rfl

/-! ### The obligations -/

/-- Settles O49: the tick finds the timer just written, so it lowers VX and not the old value, and it beeps by VX. -/
theorem setTimersResult : Obligations.SetTimersResult := by
  intro x s
  constructor
  · obtain ⟨hregs, hmem, hindex, hstack, hkeys, hdisplay⟩ := keepsAllButPcTimers_of_eq (s := s)
      (t := (s.setDt (s.reg x)).setPc (nextPc s.pc)) rfl
    exact ⟨_, exec_ldDtVx x s, rfl, rfl, rfl, hregs, hmem, hindex, hstack, hkeys, hdisplay, State.toNat_tick_dt _⟩
  · obtain ⟨hregs, hmem, hindex, hstack, hkeys, hdisplay⟩ := keepsAllButPcTimers_of_eq (s := s)
      (t := (s.setSt (s.reg x)).setPc (nextPc s.pc)) rfl
    exact ⟨_, exec_ldStVx x s, rfl, rfl, rfl, hregs, hmem, hindex, hstack, hkeys, hdisplay, State.toNat_tick_st _,
      State.tick_events _⟩

/-- Settles O46: both skips write pc only, and `keyIndex` is the low nibble's key (D5). -/
theorem skipKeyResult : Obligations.SkipKeyResult :=
  fun x s => ⟨⟨_, exec_skp x s, rfl, keepsAllButPc_setPc s _⟩, ⟨_, exec_sknp x s, rfl, keepsAllButPc_setPc s _⟩⟩

/-- Settles O48: a write of DT without a flag; the tick leaves VX and lowers DT, so a DT above 0 ends one below VX. -/
theorem ldVxDtResult : Obligations.LdVxDtResult := by
  intro x s
  obtain ⟨hregs, hpc, hrest⟩ := s.putReg_frame x s.dt
  refine ⟨_, exec_ldVxDt x s, s.reg_putReg_self x s.dt, hregs, hpc, hrest, fun hpos => ?_⟩
  have hdt : (s.putReg x s.dt).dt = s.dt := rfl
  rw [State.tick_reg, State.reg_putReg_self, State.toNat_tick_dt, hdt]
  omega

end Sys2Proof.Machine
end

section
/-! PROOFS. Exceptions (spec/60_exceptions.md R105): the whole step of an unknown word, its diagnostic and the tick. -/

namespace Sys2Proof.Machine

theorem State.tick_pc (s : State) : s.tick.pc = s.pc := by
  rw [State.tick_eq]

/-- The timers and the events are all that a tick changes (R110). -/
theorem State.tick_frame (s : State) :
    s.tick = { s with dt := s.tick.dt, st := s.tick.st, events := s.tick.events } := by
  rw [State.tick_eq]

/-- Before the tick, an unknown word changes pc and the events only, and its diagnostic is the only event (R105). -/
theorem State.unknownOpcode_beginStep (s : State) (w : Word) :
    s.beginStep.unknownOpcode w = { s with pc := nextPc s.pc, events := [.diag w s.pc] } := rfl

/-- Settles O9: the tick closes the step of an unknown word too (D16); it leaves the new pc, lowers the timers the word
did not touch, and puts its Beep behind the diagnostic. -/
theorem unknownWordStep : Obligations.UnknownWordStep := by
  intro s w hd
  have hstep := step_of_unknown hd
  rw [State.unknownOpcode_beginStep] at hstep
  refine ⟨_, hstep, ?pc, State.toNat_tick_dt _, State.toNat_tick_st _, ?events, ?frame⟩
  case pc => exact State.tick_pc _
  case events =>
    rw [State.tick_eq]
    rfl
  case frame =>
    rw [State.tick_pc]
    exact State.tick_frame _

end Sys2Proof.Machine
end

section
/-! PROOFS. Loading an image (spec/70_reset_and_hazards.md R119): one equation for each answer of `loadProgram`, and what
memory reads as after the image is written at 0x200. -/

namespace Sys2Proof.Machine

theorem loadProgram_of_tooLarge {image : List Byte} (s : State) (h : image.length > 3584) :
    loadProgram image s = (.programTooLarge, s) := if_pos h

theorem loadProgram_of_fits {image : List Byte} (s : State) (h : image.length ≤ 3584) :
    loadProgram image s = (.loaded, State.writeBytes 0x200 image s) := if_neg (Nat.not_lt.mpr h)

/-- An image that fits ends at the top of memory at the latest, so no byte of it wraps (D1): its bytes read back at 0x200
and on, and every address below 0x200 or past its end reads as before (D19). -/
theorem State.readByte_writeBytes_image (image : List Byte) (s : State) (hfits : image.length ≤ 3584) :
    (∀ (k : Nat) (h : k < image.length), (State.writeBytes 0x200 image s).readByte (0x200 + k) = image[k]) ∧
    (∀ a, a % 4096 < 0x200 ∨ 0x200 + image.length ≤ a % 4096 →
      (State.writeBytes 0x200 image s).readByte a = s.readByte a) := by
  obtain ⟨himage, hother⟩ := State.readByte_writeBytes_self 0x200 image s (by omega)
  refine ⟨himage, fun a houtside => hother a fun k hk => ?_⟩
  have hnowrap : (0x200 + k) % 4096 = 0x200 + k := Nat.mod_eq_of_lt (by omega)
  omega

/-- Settles O58: the two answers exclude each other by the length alone, so the empty image and the odd ones need no case
of their own (D36); what an image that fits writes is in memory only. -/
theorem loadProgramResult : Obligations.LoadProgramResult := by
  intro image s
  refine ⟨loadProgram_of_tooLarge s, fun hfits => ?_⟩
  obtain ⟨himage, hother⟩ := State.readByte_writeBytes_image image s hfits
  exact ⟨_, loadProgram_of_fits s hfits, himage, hother, State.writeBytes_frame 0x200 image s⟩

end Sys2Proof.Machine
end

section
/-! PROOFS. Decoding against encoding (spec/30_encoding.md R45 to R52): each format read back, the word that the decoder's
answer stands for, and the unknown words family by family. -/

namespace Sys2Proof.Machine

/-! ### An encoded word decodes to its instruction (R46) -/

theorem decode_formatFA {op : Nibble} {f : Addr12 → Instr}
    (h : ∀ {w}, opNibble w = op → decode w = .instr (f (fieldNNN w))) (nnn : Addr12) :
    decode (formatFA op nnn) = .instr (f nnn) := by
  rw [h (opNibble_formatFA op nnn), fieldNNN_formatFA]

theorem decode_formatFR {op : Nibble} {f : RegIdx → Byte → Instr}
    (h : ∀ {w}, opNibble w = op → decode w = .instr (f (fieldX w) (fieldNN w))) (x : RegIdx) (nn : Byte) :
    decode (formatFR op x nn) = .instr (f x nn) := by
  rw [h (opNibble_formatFR op x nn), fieldX_formatFR, fieldNN_formatFR]

theorem decode_formatFD {op : Nibble} {f : RegIdx → RegIdx → Nibble → Instr}
    (h : ∀ {w}, opNibble w = op → decode w = .instr (f (fieldX w) (fieldY w) (fieldN w))) (x y : RegIdx) (n : Nibble) :
    decode (formatFRR op x y n) = .instr (f x y n) := by
  rw [h (opNibble_formatFRR op x y n), fieldX_formatFRR, fieldY_formatFRR, fieldN_formatFRR]

theorem decode_formatFRR {op n : Nibble} {bits : Word} {f : RegIdx → RegIdx → Instr}
    (h : EncodedBy 0xF00F bits (fun w => f (fieldX w) (fieldY w))) (x y : RegIdx)
    (hbits : formatFRR op 0 0 n = bits) : decode (formatFRR op x y n) = .instr (f x y) := by
  simpa only [fieldX_formatFRR, fieldY_formatFRR] using h _ ((Laws.formatFRR_mask op x y n).trans hbits)

theorem decode_formatFX {op : Nibble} {nn : Byte} {bits : Word} {f : RegIdx → Instr}
    (h : EncodedBy 0xF0FF bits (fun w => f (fieldX w))) (x : RegIdx) (hbits : formatFR op 0 nn = bits) :
    decode (formatFR op x nn) = .instr (f x) := by
  simpa only [fieldX_formatFR] using h _ ((Laws.formatFR_mask_function op x nn).trans hbits)

/-- Settles O2: each instruction by its format, whose fields are read back. -/
theorem decodeOfEncode : Obligations.DecodeOfEncode
  | .cls => encodedBy_cls _ rfl
  | .ret => encodedBy_ret _ rfl
  | .jp nnn => decode_formatFA decode_op1 nnn
  | .call nnn => decode_formatFA decode_op2 nnn
  | .seImm x nn => decode_formatFR decode_op3 x nn
  | .sneImm x nn => decode_formatFR decode_op4 x nn
  | .seReg x y => decode_formatFRR encodedBy_seReg x y rfl
  | .ldImm x nn => decode_formatFR decode_op6 x nn
  | .addImm x nn => decode_formatFR decode_op7 x nn
  | .ldReg x y => decode_formatFRR encodedBy_ldReg x y rfl
  | .orReg x y => decode_formatFRR encodedBy_orReg x y rfl
  | .andReg x y => decode_formatFRR encodedBy_andReg x y rfl
  | .xorReg x y => decode_formatFRR encodedBy_xorReg x y rfl
  | .addReg x y => decode_formatFRR encodedBy_addReg x y rfl
  | .subReg x y => decode_formatFRR encodedBy_subReg x y rfl
  | .shr x y => decode_formatFRR encodedBy_shr x y rfl
  | .subn x y => decode_formatFRR encodedBy_subn x y rfl
  | .shl x y => decode_formatFRR encodedBy_shl x y rfl
  | .sneReg x y => decode_formatFRR encodedBy_sneReg x y rfl
  | .ldI nnn => decode_formatFA decode_opA nnn
  | .jpV0 nnn => decode_formatFA decode_opB nnn
  | .rnd x nn => decode_formatFR decode_opC x nn
  | .drw x y n => decode_formatFD decode_opD x y n
  | .skp x => decode_formatFX encodedBy_skp x rfl
  | .sknp x => decode_formatFX encodedBy_sknp x rfl
  | .ldVxDt x => decode_formatFX encodedBy_ldVxDt x rfl
  | .ldVxKey x => decode_formatFX encodedBy_ldVxKey x rfl
  | .ldDtVx x => decode_formatFX encodedBy_ldDtVx x rfl
  | .ldStVx x => decode_formatFX encodedBy_ldStVx x rfl
  | .addI x => decode_formatFX encodedBy_addI x rfl
  | .ldFont x => decode_formatFX encodedBy_ldFont x rfl
  | .ldBcd x => decode_formatFX encodedBy_ldBcd x rfl
  | .storeRegs x => decode_formatFX encodedBy_storeRegs x rfl
  | .loadRegs x => decode_formatFX encodedBy_loadRegs x rfl

/-! ### The word that the decoder's answer stands for -/

/-- The word an answer of the decoder stands for: an instruction's encoding, or the unknown word it names. -/
def answerWord : Decoded → Word
  | .instr i => encode i
  | .unknown w => w

/-- An answer chosen by a test stands for a word when both choices do. -/
theorem answerWord_ite {c : Prop} [Decidable c] {a b : Decoded} {w : Word} (ha : c → answerWord a = w)
    (hb : answerWord b = w) : answerWord (if c then a else b) = w := by
  by_cases hc : c
  · rw [if_pos hc, ha hc]
  · rw [if_neg hc, hb]

theorem formatFA_fields {w : Word} {op : Nibble} (hop : opNibble w = op) : formatFA op (fieldNNN w) = w :=
  hop ▸ (word_eq_formatFA w).symm

theorem formatFR_fields {w : Word} {op : Nibble} (hop : opNibble w = op) : formatFR op (fieldX w) (fieldNN w) = w :=
  hop ▸ (word_eq_formatFR w).symm

theorem formatFX_fields {w : Word} {op : Nibble} {nn : Byte} (hop : opNibble w = op) (hnn : fieldNN w = nn) :
    formatFR op (fieldX w) nn = w :=
  hnn ▸ formatFR_fields hop

theorem formatFRR_fields {w : Word} {op n : Nibble} (hop : opNibble w = op) (hn : fieldN w = n) :
    formatFRR op (fieldX w) (fieldY w) n = w :=
  hop ▸ hn ▸ (word_eq_formatFRR w).symm

/-- A word with first nibble 0 and X = 0 is its low byte. -/
theorem formatFR_zero_fields {w : Word} {nn : Byte} (hop : opNibble w = 0x0) (h : nibbleX w = 0x0 ∧ fieldNN w = nn) :
    formatFR 0x0 0 nn = w := by
  obtain ⟨hx, hnn⟩ := h
  have hX : fieldX w = 0 := congrArg BitVec.toFin hx
  exact hX ▸ formatFX_fields hop hnn

theorem answerWord_family0 {w : Word} (hop : opNibble w = 0x0) : answerWord (decodeFamily0 w) = w :=
  answerWord_ite (formatFR_zero_fields hop) <| answerWord_ite (formatFR_zero_fields hop) rfl

theorem answerWord_family5 {w : Word} (hop : opNibble w = 0x5) : answerWord (decodeFamily5 w) = w :=
  answerWord_ite (formatFRR_fields hop) rfl

theorem answerWord_family8 {w : Word} (hop : opNibble w = 0x8) : answerWord (decodeFamily8 w) = w :=
  answerWord_ite (formatFRR_fields hop) <| answerWord_ite (formatFRR_fields hop) <|
  answerWord_ite (formatFRR_fields hop) <| answerWord_ite (formatFRR_fields hop) <|
  answerWord_ite (formatFRR_fields hop) <| answerWord_ite (formatFRR_fields hop) <|
  answerWord_ite (formatFRR_fields hop) <| answerWord_ite (formatFRR_fields hop) <|
  answerWord_ite (formatFRR_fields hop) rfl

theorem answerWord_family9 {w : Word} (hop : opNibble w = 0x9) : answerWord (decodeFamily9 w) = w :=
  answerWord_ite (formatFRR_fields hop) rfl

theorem answerWord_familyE {w : Word} (hop : opNibble w = 0xE) : answerWord (decodeFamilyE w) = w :=
  answerWord_ite (formatFX_fields hop) <| answerWord_ite (formatFX_fields hop) rfl

theorem answerWord_familyF {w : Word} (hop : opNibble w = 0xF) : answerWord (decodeFamilyF w) = w :=
  answerWord_ite (formatFX_fields hop) <| answerWord_ite (formatFX_fields hop) <|
  answerWord_ite (formatFX_fields hop) <| answerWord_ite (formatFX_fields hop) <|
  answerWord_ite (formatFX_fields hop) <| answerWord_ite (formatFX_fields hop) <|
  answerWord_ite (formatFX_fields hop) <| answerWord_ite (formatFX_fields hop) <|
  answerWord_ite (formatFX_fields hop) rfl

/-- Decoding drops no bit: whatever the decoder answers stands for the word it was given. -/
theorem answerWord_decode (w : Word) : answerWord (decode w) = w := by
  obtain h | h | h | h | h | h | h | h | h | h | h | h | h | h | h | h := nibble_cases (opNibble w)
  · rw [decode_op0 h, answerWord_family0 h]
  · rw [decode_op1 h]; exact formatFA_fields h
  · rw [decode_op2 h]; exact formatFA_fields h
  · rw [decode_op3 h]; exact formatFR_fields h
  · rw [decode_op4 h]; exact formatFR_fields h
  · rw [decode_op5 h, answerWord_family5 h]
  · rw [decode_op6 h]; exact formatFR_fields h
  · rw [decode_op7 h]; exact formatFR_fields h
  · rw [decode_op8 h, answerWord_family8 h]
  · rw [decode_op9 h, answerWord_family9 h]
  · rw [decode_opA h]; exact formatFA_fields h
  · rw [decode_opB h]; exact formatFA_fields h
  · rw [decode_opC h]; exact formatFR_fields h
  · rw [decode_opD h]; exact formatFRR_fields h rfl
  · rw [decode_opE h, answerWord_familyE h]
  · rw [decode_opF h, answerWord_familyF h]

/-- Settles O3: the answer stands for the word, and an instruction stands for its encoding. -/
theorem encodeOfDecode : Obligations.EncodeOfDecode := by
  intro w i hd
  have h := answerWord_decode w
  rwa [hd] at h

/-! ### The unknown words (R52) -/

/-- No row of the map matches an unknown word: its row would give it an instruction. -/
theorem wellFormed_eq_false_of_unknown {w : Word} (hd : decode w = .unknown w) : WellFormed w = false := by
  rw [WellFormed, List.any_eq_false]
  intro r hr hc
  obtain ⟨n, hn⟩ := List.mem_iff_getElem?.mp hr
  obtain ⟨i, hi, -⟩ := decode_of_row hn hc
  simp [hd] at hi

/-- The last nibbles of family 8 that no row has (R52). -/
theorem nibble_not_mem_family8 (n : Nibble) :
    n ∉ ([0x0, 0x1, 0x2, 0x3, 0x4, 0x5, 0x6, 0x7, 0xE] : List Nibble) ↔
      n ∈ ([0x8, 0x9, 0xA, 0xB, 0xC, 0xD, 0xF] : List Nibble) := by
  revert n; decide

theorem fieldN_ne_zero {w : Word} {op : Nibble} (hw : WellFormed w = false) (hop : opNibble w = op)
    (hrow : HasRow 0xF00F (formatFRR op 0 0 0x0)) : fieldN w ≠ 0x0 :=
  fun hn => fieldN_not_mem hw hop (ns := [0x0]) (by simpa using hrow) (List.mem_singleton.mpr hn)

theorem ne_of_wellFormed {w w' : Word} (hw : WellFormed w = false) (hw' : WellFormed w' = true) : w ≠ w' := by
  rintro rfl
  rw [hw] at hw'
  contradiction

/-- In family 0 the words with X = 0 that are neither 00E0 nor 00EE have neither's low byte. -/
theorem fieldNN_not_mem_of_ne {w : Word} (hop : opNibble w = 0x0) (hcls : w ≠ 0x00E0) (hret : w ≠ 0x00EE)
    (hx : nibbleX w = 0x0) : fieldNN w ∉ ([0xE0, 0xEE] : List Byte) := by
  simp only [List.mem_cons, List.not_mem_nil, or_false]
  rintro (hnn | hnn)
  · exact hcls (formatFR_zero_fields hop ⟨hx, hnn⟩).symm
  · exact hret (formatFR_zero_fields hop ⟨hx, hnn⟩).symm

/-- Settles O5: an unknown word is matched by no row, so its fields are not those of a row of its family; and where they are
not, the second stage of the decoder finds nothing. -/
theorem unknownWordsByFamily : Obligations.UnknownWordsByFamily := by
  intro w
  constructor
  · intro hd
    have hw := wellFormed_eq_false_of_unknown hd
    obtain hop | hop | hop | hop | hop | hop | hop := nibble_direct_or_shared (opNibble w)
    · exact absurd hop (opNibble_not_mem hw (by decide))
    · exact .inl ⟨hop, ne_of_wellFormed hw (by decide), ne_of_wellFormed hw (by decide)⟩
    · exact .inr <| .inl ⟨hop, fieldN_ne_zero hw hop (by decide)⟩
    · exact .inr <| .inr <| .inl ⟨hop, (nibble_not_mem_family8 _).mp (fieldN_not_mem hw hop (by decide))⟩
    · exact .inr <| .inr <| .inr <| .inl ⟨hop, fieldN_ne_zero hw hop (by decide)⟩
    · exact .inr <| .inr <| .inr <| .inr <| .inl ⟨hop, fieldNN_not_mem hw hop (by decide)⟩
    · exact .inr <| .inr <| .inr <| .inr <| .inr ⟨hop, fieldNN_not_mem hw hop (by decide)⟩
  · rintro (⟨hop, hcls, hret⟩ | ⟨hop, hn⟩ | ⟨hop, hn⟩ | ⟨hop, hn⟩ | ⟨hop, hnn⟩ | ⟨hop, hnn⟩)
    · exact (decode_op0 hop).trans (decodeFamily0_unknown (fieldNN_not_mem_of_ne hop hcls hret))
    · exact (decode_op5 hop).trans (decodeFamily5_unknown (by simpa using hn))
    · exact (decode_op8 hop).trans (decodeFamily8_unknown ((nibble_not_mem_family8 _).mpr hn))
    · exact (decode_op9 hop).trans (decodeFamily9_unknown (by simpa using hn))
    · exact (decode_opE hop).trans (decodeFamilyE_unknown hnn)
    · exact (decode_opF hop).trans (decodeFamilyF_unknown hnn)

end Sys2Proof.Machine
end

section
/-! PROOFS. What each instruction writes (spec/10_state.md R25), said once for the 34 of them, and the rules of the whole
machine that follow: who writes the screen, memory, the stack, I, the timers and the V registers. -/

namespace Sys2Proof.Machine

theorem exec_unique {i : Instr} {s t u : State} (ht : exec i s = .next t) (hu : exec i s = .next u) : t = u :=
  Host.Outcome.next.inj (ht.symm.trans hu)

/-- What an instruction may write beside pc, by the elements it writes; every other element is as before. -/
inductive Effect (i : Instr) (s t : State) : Prop
  /-- V registers only: jumps, skips, loads and arithmetic, FX07 and FX0A. -/
  | regs (h : t = { s with v := t.v, pc := t.pc })
  /-- V registers and the count of draws. -/
  | draw (hi : ∃ x nn, i = .rnd x nn) (h : t = { s with v := t.v, pc := t.pc, draws := t.draws })
  /-- sp and the stack. -/
  | stack (hi : i = .ret ∨ ∃ nnn, i = .call nnn) (h : t = { s with pc := t.pc, sp := t.sp, stack := t.stack })
  /-- I and V registers. -/
  | index (hi : (∃ nnn, i = .ldI nnn) ∨ ∃ x, i = .addI x ∨ i = .ldFont x ∨ i = .loadRegs x)
    (h : t = { s with v := t.v, i := t.i, pc := t.pc })
  /-- Memory. -/
  | digits (hi : ∃ x, i = .ldBcd x) (h : t = { s with pc := t.pc, mem := t.mem })
  /-- Memory and I. -/
  | store (hi : ∃ x, i = .storeRegs x) (h : t = { s with i := t.i, pc := t.pc, mem := t.mem })
  /-- DT. -/
  | delay (hi : ∃ x, i = .ldDtVx x) (h : t = { s with pc := t.pc, dt := t.dt })
  /-- ST. -/
  | sound (hi : ∃ x, i = .ldStVx x) (h : t = { s with pc := t.pc, st := t.st })
  /-- The framebuffer, the redraw flag, which is set, and the VF of a collision. -/
  | screen (hi : i = .cls ∨ ∃ x y n, i = .drw x y n) (h : t = { s with v := t.v, pc := t.pc, fb := t.fb, redraw := true })

theorem exec_loadRegs (x : RegIdx) (s : State) :
    exec (.loadRegs x) s =
      .next (((State.loadRegsUpTo s.i.toNat (x.val + 1) s).setI (indexAfter s.i x)).setPc (nextPc s.pc)) := by
  have hpc : (State.loadRegsUpTo s.i.toNat (x.val + 1) s).pc = s.pc := by rw [State.loadRegsUpTo_frame]
  rw [← hpc]
  rfl

/-- A load of registers writes V, I and pc only. -/
theorem exec_loadRegs_frame {x : RegIdx} {s t : State} (h : exec (.loadRegs x) s = .next t) :
    t = { s with v := t.v, i := t.i, pc := t.pc } := by
  obtain rfl := exec_unique (exec_loadRegs x s) h
  exact congrArg (fun u : State => (u.setI (indexAfter s.i x)).setPc (nextPc s.pc))
    (State.loadRegsUpTo_frame s.i.toNat (x.val + 1) s)

/-- A store of registers writes memory, I and pc only. -/
theorem exec_storeRegs_frame {x : RegIdx} {s t : State} (h : exec (.storeRegs x) s = .next t) :
    t = { s with i := t.i, pc := t.pc, mem := t.mem } := by
  obtain rfl := exec_unique (exec_storeRegs x s) h
  exact congrArg (fun u : State => (u.setI (indexAfter s.i x)).setPc (nextPc s.pc))
    (State.storeRegsUpTo_frame s.i.toNat (x.val + 1) s)

/-- What each V register holds after V0 to VX are loaded, by register. -/
theorem State.reg_loadRegs (i : Nat) (x : RegIdx) (s : State) (k : RegIdx) :
    (State.loadRegsUpTo i (x.val + 1) s).reg k = if k ≤ x then s.readByte (i + k.val) else s.reg k := by
  have hle : k.val < x.val + 1 ↔ k ≤ x := Nat.lt_succ_iff
  rw [State.reg_loadRegsUpTo i (x.val + 1) x.isLt, if_congr hle rfl rfl]

theorem exec_ldVxKey_of_none {s : State} (x : RegIdx) (h : leastKeyDown s.key = none) :
    exec (.ldVxKey x) s = .next s := by
  simp only [exec, execLdVxKey, h]

theorem exec_ldVxKey_of_some {s : State} {k : Fin 16} (x : RegIdx) (h : leastKeyDown s.key = some k) :
    exec (.ldVxKey x) s = .next (s.putReg x (keyNumber k)) := by
  simp only [exec, execLdVxKey, h, State.putReg]

/-- Every instruction answers a next state, with its effect, and writes its destinations only among the V registers. -/
theorem exec_spec (i : Instr) (s : State) :
    ∃ t, exec i s = .next t ∧ Effect i s t ∧ KeepsRegsBut (regsWritten i) s t := by
  cases i with
  | cls => exact ⟨_, rfl, .screen (.inl rfl) rfl, fun _ _ => rfl⟩
  | drw x y n => exact ⟨_, rfl, .screen (.inr ⟨x, y, n, rfl⟩) rfl, keepsRegsBut_setReg (s.present _) flagReg _⟩
  | ret => exact ⟨_, rfl, .stack (.inl rfl) rfl, fun _ _ => rfl⟩
  | call nnn => exact ⟨_, rfl, .stack (.inr ⟨nnn, rfl⟩) rfl, fun _ _ => rfl⟩
  | jp _ | seImm _ _ | sneImm _ _ | seReg _ _ | sneReg _ _ | jpV0 _ | skp _ | sknp _ =>
    exact ⟨_, rfl, .regs rfl, fun _ _ => rfl⟩
  | ldImm x _ | addImm x _ | ldReg x _ | orReg x _ | andReg x _ | xorReg x _ | ldVxDt x =>
    exact ⟨_, rfl, .regs rfl, keepsRegsBut_setReg s x _⟩
  | addReg x _ | subReg x _ | shr x _ | subn x _ | shl x _ =>
    exact ⟨_, rfl, .regs rfl, keepsRegsBut_setReg_flag s x _ _⟩
  | ldVxKey x =>
    cases hk : leastKeyDown s.key with
    | none => exact ⟨_, exec_ldVxKey_of_none x hk, .regs rfl, fun _ _ => rfl⟩
    | some k => exact ⟨_, exec_ldVxKey_of_some x hk, .regs rfl, keepsRegsBut_setReg s x _⟩
  | rnd x nn => exact ⟨_, rfl, .draw ⟨x, nn, rfl⟩ rfl, keepsRegsBut_setReg s.advanceDraws x _⟩
  | ldI nnn => exact ⟨_, rfl, .index (.inl ⟨nnn, rfl⟩) rfl, fun _ _ => rfl⟩
  | addI x => exact ⟨_, rfl, .index (.inr ⟨x, .inl rfl⟩) rfl, keepsRegsBut_setReg (s.setI _) flagReg _⟩
  | ldFont x => exact ⟨_, rfl, .index (.inr ⟨x, .inr (.inl rfl)⟩) rfl, fun _ _ => rfl⟩
  | loadRegs x =>
    have hloads := exec_loadRegs x s
    refine ⟨_, hloads, .index (.inr ⟨x, .inr (.inr rfl)⟩) (exec_loadRegs_frame hloads), fun k hk => ?_⟩
    have hk' : ¬ k ≤ x := by simpa [regsWritten] using hk
    rw [State.setPc_reg, State.setI_reg, State.reg_loadRegs, if_neg hk']
  | ldBcd x => exact ⟨_, exec_ldBcd x s, .digits ⟨x, rfl⟩ rfl, fun _ _ => rfl⟩
  | storeRegs x =>
    have hstores := exec_storeRegs x s
    exact ⟨_, hstores, .store ⟨x, rfl⟩ (exec_storeRegs_frame hstores), fun k _ => State.reg_storeRegsUpTo _ _ s k⟩
  | ldDtVx x => exact ⟨_, rfl, .delay ⟨x, rfl⟩ rfl, fun _ _ => rfl⟩
  | ldStVx x => exact ⟨_, rfl, .sound ⟨x, rfl⟩ rfl, fun _ _ => rfl⟩

theorem exec_effect {i : Instr} {s t : State} (h : exec i s = .next t) : Effect i s t := by
  obtain ⟨u, hu, heffect, -⟩ := exec_spec i s
  exact exec_unique hu h ▸ heffect

/-! ### The rules of the whole machine (R25): the effects that could write an element are those of the named instructions -/

/-- Settles O54: the destinations are part of what each instruction is said to do. -/
theorem registersWrittenAreDestinations : Obligations.RegistersWrittenAreDestinations := by
  intro i s t h
  obtain ⟨u, hu, -, hregs⟩ := exec_spec i s
  exact exec_unique hu h ▸ hregs

/-- Settles O50: the screen is in one effect only, which sets the redraw flag. -/
theorem onlyClsAndDrwWriteTheScreen : Obligations.OnlyClsAndDrwWriteTheScreen := by
  intro i s t h
  cases exec_effect h with
  | screen hi ht =>
    refine ⟨fun hcls hdrw => ?_, fun _ => by rw [ht]⟩
    obtain rfl | ⟨x, y, n, rfl⟩ := hi
    · exact absurd rfl hcls
    · exact absurd rfl (hdrw x y n)
  | regs ht | draw _ ht | stack _ ht | index _ ht | digits _ ht | store _ ht | delay _ ht | sound _ ht =>
    rw [ht]
    exact ⟨fun _ _ => ⟨fun _ _ => rfl, rfl⟩, id⟩

/-- Settles O51: memory is in the effects of FX33 and FX55 only, and FONT, which an unlisted byte reads, in none. -/
theorem onlyBcdAndStoreWriteMemory : Obligations.OnlyBcdAndStoreWriteMemory := by
  intro i s t h hbcd hstore
  cases exec_effect h with
  | digits hi _ =>
    obtain ⟨x, rfl⟩ := hi
    exact absurd rfl (hbcd x)
  | store hi _ =>
    obtain ⟨x, rfl⟩ := hi
    exact absurd rfl (hstore x)
  | regs ht | draw _ ht | stack _ ht | index _ ht | delay _ ht | sound _ ht | screen _ ht =>
    rw [ht]
    exact fun _ => rfl

/-- Settles O52: sp and the slots are in one effect only. -/
theorem onlyCallAndRetTouchTheStack : Obligations.OnlyCallAndRetTouchTheStack := by
  intro i s t h hret hcall
  cases exec_effect h with
  | stack hi _ =>
    obtain rfl | ⟨nnn, rfl⟩ := hi
    · exact absurd rfl hret
    · exact absurd rfl (hcall nnn)
  | regs ht | draw _ ht | index _ ht | digits _ ht | store _ ht | delay _ ht | sound _ ht | screen _ ht =>
    rw [ht]
    exact ⟨rfl, fun _ => rfl⟩

/-- Settles O53: I is in two effects, DT and ST in one each. -/
theorem writersOfIndexAndTimers : Obligations.WritersOfIndexAndTimers := by
  intro i s t h
  cases exec_effect h with
  | index hi ht =>
    refine ⟨fun hldI hothers => ?_, fun _ => by rw [ht], fun _ => by rw [ht]⟩
    obtain ⟨nnn, rfl⟩ | ⟨x, hx⟩ := hi
    · exact absurd rfl (hldI nnn)
    · obtain ⟨haddI, hldFont, -, hloadRegs⟩ := hothers x
      obtain hx | hx | hx := hx
      · exact absurd hx haddI
      · exact absurd hx hldFont
      · exact absurd hx hloadRegs
  | store hi ht =>
    obtain ⟨x, rfl⟩ := hi
    refine ⟨fun _ hothers => ?_, fun _ => by rw [ht], fun _ => by rw [ht]⟩
    obtain ⟨-, -, hstoreRegs, -⟩ := hothers x
    exact absurd rfl hstoreRegs
  | delay hi ht =>
    obtain ⟨x, rfl⟩ := hi
    exact ⟨fun _ _ => by rw [KeepsIndex, ht], fun hldDt => absurd rfl (hldDt x), fun _ => by rw [ht]⟩
  | sound hi ht =>
    obtain ⟨x, rfl⟩ := hi
    exact ⟨fun _ _ => by rw [KeepsIndex, ht], fun _ => by rw [ht], fun hldSt => absurd rfl (hldSt x)⟩
  | regs ht | draw _ ht | stack _ ht | digits _ ht | screen _ ht =>
    rw [ht]
    exact ⟨fun _ _ => rfl, fun _ => rfl, fun _ => rfl⟩

/-- The model's own fields: the count of draws is in one effect only, FONT and the events in none. -/
theorem exec_keeps_model_fields {i : Instr} {s t : State} (h : exec i s = .next t) :
    t.font = s.font ∧ t.events = s.events ∧ ((∀ x nn, i ≠ .rnd x nn) → t.draws = s.draws) := by
  cases exec_effect h with
  | draw hi ht =>
    obtain ⟨x, nn, rfl⟩ := hi
    exact ⟨by rw [ht], by rw [ht], fun hrnd => absurd rfl (hrnd x nn)⟩
  | regs ht | stack _ ht | index _ ht | digits _ ht | store _ ht | delay _ ht | sound _ ht | screen _ ht =>
    rw [ht]
    exact ⟨rfl, rfl, fun _ => rfl⟩

/-- Settles O55 by `exec_keeps_model_fields`. -/
theorem onlyRndAdvancesTheDraws : Obligations.OnlyRndAdvancesTheDraws :=
  fun _ _ _ => exec_keeps_model_fields

/-- The keypad is in no effect. -/
theorem exec_key {i : Instr} {s t : State} (h : exec i s = .next t) : t.key = s.key := by
  cases exec_effect h with
  | regs ht | draw _ ht | stack _ ht | index _ ht | digits _ ht | store _ ht | delay _ ht | sound _ ht
  | screen _ ht => rw [ht]

/-- Every instruction keeps memory in its canonical form (log 5): FX33 and FX55 by the laws of their writes, and the rest
leave memory and FONT alone. -/
theorem exec_keeps_wf {i : Instr} {s t : State} (h : exec i s = .next t)
    (hwf : Memory.wf (unlistedByte s.font) s.mem = true) : Memory.wf (unlistedByte t.font) t.mem = true := by
  obtain ⟨hfont, -⟩ := exec_keeps_model_fields h
  rw [hfont]
  cases exec_effect h with
  | digits hi _ =>
    obtain ⟨x, rfl⟩ := hi
    rw [exec_unique h (exec_ldBcd x s)]
    exact State.wf_writeBytes _ _ s hwf
  | store hi _ =>
    obtain ⟨x, rfl⟩ := hi
    rw [exec_unique h (exec_storeRegs x s)]
    exact State.wf_storeRegsUpTo _ _ s hwf
  | regs ht | draw _ ht | stack _ ht | index _ ht | delay _ ht | sound _ ht | screen _ ht =>
    rw [ht]
    exact hwf

end Sys2Proof.Machine
end

section
/-! PROOFS. What every step keeps, and every run (spec/40_cycle.md R58, R63; spec/60_exceptions.md R103 to R114): fetch,
the tick, totality, the events, the invariant and the jump to itself. -/

namespace Sys2Proof.Machine

/-- Settles O7: the two bytes read are the word's digits to the base 256. -/
theorem fetchIsBigEndian : Obligations.FetchIsBigEndian :=
  fun _ => toNat_wordOfBytes _ _

/-! ### Ticks (R110, R111) -/

/-- Settles O10: each element by the tick's equation. -/
theorem tickDecrementsBothTimers : Obligations.TickDecrementsBothTimers := by
  intro s
  have hevents : s.tick.events = s.events ++ (if s.st = 1#8 then [.beep] else []) := by rw [State.tick_eq]
  exact ⟨s.toNat_tick_dt, s.toNat_tick_st, hevents, s.tick_frame⟩

/-- The Beeps of `k` ticks are those of the first `k` and the one that the next tick may add. -/
theorem beeps_succ (n k : Nat) :
    (if 0 < n ∧ n ≤ k then [Event.beep] else []) ++ (if n - k = 1 then [.beep] else []) =
      if 0 < n ∧ n ≤ k + 1 then [.beep] else [] := by
  by_cases hlast : n = k + 1
  · rw [if_neg (by omega), if_pos (by omega), if_pos (by omega)]
    rfl
  · rw [if_neg (by omega : ¬ n - k = 1), List.append_nil]
    exact if_congr (by omega) rfl rfl

/-- Settles O11: by induction on the ticks; the last one finds ST at its start less `k`, so it beeps when that is 1. -/
theorem soundTimerBeepsOnce : Obligations.SoundTimerBeepsOnce := by
  intro k s
  induction k with
  | zero =>
    have hbeeps : ¬ (0 < s.st.toNat ∧ s.st.toNat ≤ 0) := by omega
    exact ⟨rfl, rfl, by rw [if_neg hbeeps, List.append_nil]; rfl⟩
  | succ k ih =>
    obtain ⟨hst, hdt, hevents⟩ := ih
    rw [Function.iterate_succ_apply']
    refine ⟨?_, ?_, ?_⟩
    · rw [State.toNat_tick_st, hst, Nat.sub_sub]
    · rw [State.toNat_tick_dt, hdt, Nat.sub_sub]
    · rw [State.tick_events, hevents, hst, List.append_assoc, beeps_succ]

/-! ### Every step answers (R29, R103) -/

theorem step_next (s : State) : ∃ t, step s = .next t := by
  cases hd : decode s.fetch with
  | instr i =>
    obtain ⟨u, hu⟩ := exec_next i s.beginStep
    exact ⟨_, step_of_instr hd hu⟩
  | unknown w => exact ⟨_, step_of_unknown hd⟩

/-- Settles O12: every step answers, and a run is one step and the run from where it ends. -/
theorem everyRunGoesOn : Obligations.EveryRunGoesOn := by
  refine ⟨step_next, fun k => ?_⟩
  induction k with
  | zero => exact fun s => ⟨s, rfl⟩
  | succ k ih =>
    intro s
    obtain ⟨t, ht⟩ := step_next s
    obtain ⟨u, hu⟩ := ih t
    exact ⟨u, (run_next k ht).trans hu⟩

/-! ### The events of a step (R26, R107) -/

/-- The diagnostics of a step whose word, at `a`, decodes to this answer. -/
def diagEvents (a : Word) : Decoded → List Event
  | .instr _ => []
  | .unknown w => [.diag w a]

theorem State.tick_events_cases (s : State) : s.tick.events = s.events ∨ s.tick.events = s.events ++ [.beep] := by
  rw [State.tick_events]
  by_cases h : s.st.toNat = 1
  · exact .inr (by rw [if_pos h])
  · exact .inl (by rw [if_neg h, List.append_nil])

/-- A step's events are its diagnostic, if its word is unknown, and then the Beep, if its tick gives one. -/
theorem step_events {s t : State} (h : step s = .next t) :
    t.events = diagEvents s.pc (decode s.fetch) ∨ t.events = diagEvents s.pc (decode s.fetch) ++ [.beep] := by
  obtain ⟨i, u, hd, hu, rfl⟩ | ⟨w, hd, rfl⟩ := step_cases h
  · obtain ⟨-, hevents, -⟩ := exec_keeps_model_fields hu
    have hnone : u.events = diagEvents s.pc (decode s.fetch) := by rw [hevents, hd]; rfl
    exact hnone ▸ u.tick_events_cases
  · have hdiag : (s.beginStep.unknownOpcode w).events = diagEvents s.pc (decode s.fetch) := by rw [hd]; rfl
    exact hdiag ▸ State.tick_events_cases _

theorem diag_mem_diagEvents {a a' w : Word} {d : Decoded} :
    .diag w a' ∈ diagEvents a d ↔ d = .unknown w ∧ a' = a := by
  cases d with
  | instr i => simp [diagEvents]
  | unknown w' => simp [diagEvents, eq_comm]

theorem step_eventsOrdered {s t : State} (h : step s = .next t) : eventsOrdered t.events = true := by
  obtain hevents | hevents := step_events h
  · rw [hevents]
    cases decode s.fetch <;> rfl
  · rw [hevents]
    cases decode s.fetch <;> rfl

/-- Settles O13: the diagnostic comes from the decoder's answer alone, and the tick adds at most a Beep behind it. -/
theorem eventsOfAStep : Obligations.EventsOfAStep := by
  intro s t h
  refine ⟨fun w a => ?_, step_eventsOrdered h⟩
  rw [← diag_mem_diagEvents]
  obtain hevents | hevents := step_events h
  · rw [hevents]
  · simp [hevents]

/-! ### The invariant -/

/-- Settles O16: reset lists no cell and no event. -/
theorem resetMeetsTheInvariant : Obligations.ResetMeetsTheInvariant :=
  ⟨Memory.wf_nil _, rfl⟩

theorem State.tick_mem (s : State) : s.tick.mem = s.mem := by rw [State.tick_eq]

theorem State.tick_font (s : State) : s.tick.font = s.font := by rw [State.tick_eq]

theorem State.tick_key (s : State) : s.tick.key = s.key := by rw [State.tick_eq]

/-- Every step keeps memory in its canonical form: an unknown word and the tick do not write it. -/
theorem step_keeps_wf {s t : State} (h : step s = .next t) (hwf : Memory.wf (unlistedByte s.font) s.mem = true) :
    Memory.wf (unlistedByte t.font) t.mem = true := by
  obtain ⟨i, u, -, hu, rfl⟩ | ⟨w, -, rfl⟩ := step_cases h
  · rw [State.tick_font, State.tick_mem]
    exact exec_keeps_wf hu hwf
  · rw [State.tick_font, State.tick_mem]
    exact hwf

/-- Settles O17: memory by `step_keeps_wf`; the events are the step's own, whatever they were before. -/
theorem stepKeepsTheInvariant : Obligations.StepKeepsTheInvariant :=
  fun _ _ ⟨hwf, _⟩ h => ⟨step_keeps_wf h hwf, step_eventsOrdered h⟩

theorem State.inv_init (s : State) : s.init.Inv := ⟨Memory.wf_nil _, rfl⟩

/-- Loading keeps the invariant, of an image that fits by the law of its writes, of one too long because nothing is
written. -/
theorem inv_loadProgram (image : List Byte) {s : State} (hinv : s.Inv) : (loadProgram image s).2.Inv := by
  obtain hfits | htoo := le_or_gt image.length 3584
  · obtain ⟨hwf, hevents⟩ := hinv
    have hloaded : (State.writeBytes 0x200 image s).Inv := by
      rw [State.writeBytes_frame]
      exact ⟨State.wf_writeBytes 0x200 image s hwf, hevents⟩
    rw [loadProgram_of_fits s hfits]
    exact hloaded
  · rw [loadProgram_of_tooLarge s htoo]
    exact hinv

/-- Settles O18: `init` sets up the invariant, loading and the step keep it, and the other operations write neither memory
nor the events. -/
theorem hostCallsKeepTheInvariant : Obligations.HostCallsKeepTheInvariant := by
  intro c s hinv
  cases c with
  | init => exact ⟨_, _, rfl, s.inv_init⟩
  | loadProgram image => exact ⟨_, _, rfl, inv_loadProgram image hinv⟩
  | setKey index down => exact ⟨_, _, rfl, hinv⟩
  | framebuffer => exact ⟨_, _, rfl, hinv⟩
  | redrawRequested => exact ⟨_, _, rfl, hinv⟩
  | clearRedrawFlag => exact ⟨_, _, rfl, hinv⟩
  | step =>
    obtain ⟨t, ht⟩ := step_next s
    exact ⟨t, .events t.events, by simp only [hostCall, ht], stepKeepsTheInvariant s t hinv ht⟩

/-! ### The keypad and FONT (R21) -/

/-- Settles O56: no instruction writes them, nor do an unknown word and the tick. -/
theorem noStepWritesTheKeypad : Obligations.NoStepWritesTheKeypad := by
  intro s t h
  have hkeep : t.key = s.key ∧ t.font = s.font := by
    obtain ⟨i, u, -, hu, rfl⟩ | ⟨w, -, rfl⟩ := step_cases h
    · obtain ⟨hfont, -⟩ := exec_keeps_model_fields hu
      exact ⟨u.tick_key.trans (exec_key (s := s.beginStep) hu), u.tick_font.trans hfont⟩
    · exact ⟨State.tick_key _, State.tick_font _⟩
  obtain ⟨hkey, hfont⟩ := hkeep
  exact ⟨fun k => congrArg (Vector.get · k) hkey, hfont⟩

/-! ### A jump to itself (R63) -/

theorem exec_jp (nnn : Addr12) (s : State) : exec (.jp nnn) s = .next (s.setPc (immAddr nnn)) := rfl

/-- One step of a jump to itself leaves everything but the timers and the events. -/
theorem step_jumpToSelf {nnn : Addr12} {s : State} (hd : decode s.fetch = .instr (.jp nnn))
    (hpc : s.pc.toNat = nnn.toNat) :
    ∃ t, step s = .next t ∧ t = { s with dt := t.dt, st := t.st, events := t.events } := by
  have htarget : immAddr nnn = s.pc := BitVec.eq_of_toNat_eq ((toNat_immAddr nnn).trans hpc.symm)
  refine ⟨_, step_of_instr hd (exec_jp nnn s.beginStep), ?_⟩
  rw [htarget]
  exact State.tick_frame _

/-- Settles O26: by induction on the steps; where one step ends, the word at pc and pc are the same again. -/
theorem jumpToSelfStays : Obligations.JumpToSelfStays := by
  intro nnn s hd hpc k
  induction k generalizing s with
  | zero => exact ⟨s, rfl, rfl⟩
  | succ k ih =>
    obtain ⟨t, hstep, ht⟩ := step_jumpToSelf hd hpc
    have hfetch : t.fetch = s.fetch := by rw [ht]; rfl
    have hpc' : t.pc = s.pc := by rw [ht]
    obtain ⟨u, hrun, hu⟩ := ih t (hfetch ▸ hd) (hpc' ▸ hpc)
    exact ⟨u, (run_next k hstep).trans hrun, hu.trans (by rw [ht])⟩

end Sys2Proof.Machine
end

section
/-! PROOFS. What a program cannot observe (spec/10_state.md R23, R26, R27): no instruction, no unknown word and no tick
reads ST, the redraw flag or the events into another element. -/

namespace Sys2Proof.Machine

/-- `s` with other values where a program cannot look. -/
def State.withUnseen (s : State) (st : Byte) (redraw : Bool) (events : List Event) : State :=
  { s with st := st, redraw := redraw, events := events }

theorem sameToProgram_iff {s s' : State} :
    SameToProgram s s' ↔ ∃ st redraw events, s' = s.withUnseen st redraw events := by
  constructor
  · exact fun h => ⟨_, _, _, h⟩
  · rintro ⟨st, redraw, events, rfl⟩
    rfl

theorem State.storeRegsUpTo_withUnseen (i n : Nat) (s : State) (st : Byte) (redraw : Bool) (events : List Event) :
    State.storeRegsUpTo i n (s.withUnseen st redraw events) =
      (State.storeRegsUpTo i n s).withUnseen st redraw events := by
  induction n with
  | zero => rfl
  | succ n ih => rw [State.storeRegsUpTo, ih]; rfl

theorem State.loadRegsUpTo_withUnseen (i n : Nat) (s : State) (st : Byte) (redraw : Bool) (events : List Event) :
    State.loadRegsUpTo i n (s.withUnseen st redraw events) =
      (State.loadRegsUpTo i n s).withUnseen st redraw events := by
  induction n with
  | zero => rfl
  | succ n ih => rw [State.loadRegsUpTo, ih]; rfl

/-- An instruction answers alike from states that a program cannot tell apart. FX55 and FX65 do by their loops, FX0A for
each answer of the keypad, and the rest by the very terms of their meanings. -/
theorem exec_withUnseen (i : Instr) (s : State) (st : Byte) (redraw : Bool) (events : List Event) :
    ∃ t t', exec i s = .next t ∧ exec i (s.withUnseen st redraw events) = .next t' ∧ SameToProgram t t' := by
  cases i with
  | storeRegs x =>
    refine ⟨_, _, exec_storeRegs x s, exec_storeRegs x _, ?_⟩
    rw [State.storeRegsUpTo_withUnseen]
    rfl
  | loadRegs x =>
    refine ⟨_, _, exec_loadRegs x s, exec_loadRegs x _, ?_⟩
    rw [State.loadRegsUpTo_withUnseen]
    rfl
  | ldVxKey x =>
    cases hk : leastKeyDown s.key with
    | none => exact ⟨_, _, exec_ldVxKey_of_none x hk, exec_ldVxKey_of_none x hk, rfl⟩
    | some k => exact ⟨_, _, exec_ldVxKey_of_some x hk, exec_ldVxKey_of_some x hk, rfl⟩
  | cls | ret | jp _ | call _ | seImm _ _ | sneImm _ _ | seReg _ _ | ldImm _ _ | addImm _ _ | ldReg _ _ | orReg _ _
  | andReg _ _ | xorReg _ _ | addReg _ _ | subReg _ _ | shr _ _ | subn _ _ | shl _ _ | sneReg _ _ | ldI _ | jpV0 _
  | rnd _ _ | drw _ _ _ | skp _ | sknp _ | ldVxDt _ | ldDtVx _ | ldStVx _ | addI _ | ldFont _ | ldBcd _ =>
    exact ⟨_, _, rfl, rfl, rfl⟩

/-- The tick lowers the same DT in both states, and ST is where they may differ. -/
theorem sameToProgram_tick {s s' : State} (h : SameToProgram s s') : SameToProgram s.tick s'.tick := by
  obtain ⟨st, redraw, events, rfl⟩ := sameToProgram_iff.mp h
  rw [State.tick_eq, State.tick_eq]
  rfl

/-- Settles O57: both states fetch the same word, and its instruction, or its diagnostic, and the tick leave them alike. -/
theorem programCannotObserveSoundOrRedraw : Obligations.ProgramCannotObserveSoundOrRedraw := by
  intro s s' h
  obtain ⟨st, redraw, events, rfl⟩ := sameToProgram_iff.mp h
  cases hd : decode s.fetch with
  | instr i =>
    obtain ⟨t, t', ht, ht', hsame⟩ := exec_withUnseen i s.beginStep st redraw []
    exact ⟨_, _, step_of_instr hd ht, step_of_instr hd ht', sameToProgram_tick hsame⟩
  | unknown w => exact ⟨_, _, step_of_unknown hd, step_of_unknown hd, sameToProgram_tick rfl⟩

end Sys2Proof.Machine
end

section
/-! PROOFS. Control flow (spec/41_flow.md): the jump, the skips on a register, and the return after a call. -/

namespace Sys2Proof.Machine

theorem exec_seReg (x y : RegIdx) (s : State) :
    exec (.seReg x y) s = .next (s.setPc (skipPc (s.reg x == s.reg y) s.pc)) := rfl

theorem exec_sneReg (x y : RegIdx) (s : State) :
    exec (.sneReg x y) s = .next (s.setPc (skipPc (s.reg x != s.reg y) s.pc)) :=
  congrArg (fun c => Host.Outcome.next (s.setPc (skipPc c s.pc))) decide_not

/-- Settles O20: NNN fits in the 16 bits of pc, and its encoding is a row of the opcode map. -/
theorem jpResult : Obligations.JpResult :=
  ⟨encodedBy_jp, fun nnn s => ⟨_, exec_jp nnn s, toNat_immAddr nnn, keepsAllButPc_setPc s _⟩⟩

/-- Settles O24: both skips write pc only, and their encodings are rows of the opcode map. -/
theorem skipRegisterResult : Obligations.SkipRegisterResult :=
  ⟨encodedBy_seReg, encodedBy_sneReg, fun x y s =>
    ⟨⟨_, exec_seReg x y s, rfl, keepsAllButPc_setPc s _⟩, ⟨_, exec_sneReg x y s, rfl, keepsAllButPc_setPc s _⟩⟩⟩

/-- Settles O22: the call puts its own address into the slot that sp named, and the return comes back to that slot, around
the wrap of the stack too. -/
theorem retAfterCallResumes : Obligations.RetAfterCallResumes := by
  intro nnn s t u hcall hsp hslot
  obtain rfl := exec_unique (exec_call nnn s) hcall
  have hpop : u.popped.sp = s.sp := by
    rw [State.popped_sp, hsp]
    exact add_sub_cancel_right s.sp 1
  have hreturn : u.slot s.sp = s.pc := by
    rw [hslot, State.setPc_slot, State.slot_push, if_pos rfl]
  refine ⟨_, exec_ret u, ?_, hpop⟩
  rw [State.setPc_pc, hpop, hreturn]

end Sys2Proof.Machine
end

section
/-! PROOFS. Memory transfer (spec/43_index_memory.md): FX65, and what FX55 left for it and for the fetch
(spec/20_memory.md R42). -/

namespace Sys2Proof.Machine

/-- A state that differs in V, I and pc only: the frame of FX65. -/
theorem keepsAllButRegsIndex_of_eq {s t : State} (h : t = { s with v := t.v, i := t.i, pc := t.pc }) :
    KeepsMemory s t ∧ KeepsStack s t ∧ KeepsTimers s t ∧ KeepsKeys s t ∧ KeepsDisplay s t := by
  rw [h]
  exact ⟨fun _ => rfl, ⟨rfl, fun _ => rfl⟩, ⟨rfl, rfl⟩, fun _ => rfl, ⟨fun _ _ => rfl, rfl⟩⟩

/-- Settles O40: the loaded block by `State.reg_loadRegs`, and the frame because the block is in the registers only. -/
theorem loadRegsResult : Obligations.LoadRegsResult := by
  intro x s
  have hloads := exec_loadRegs x s
  exact ⟨_, hloads, State.reg_loadRegs s.i.toNat x s, toNat_indexAfter s.i x, rfl,
    keepsAllButRegsIndex_of_eq (exec_loadRegs_frame hloads)⟩

/-- The registers that FX55 stored read back from memory. -/
theorem readByte_of_exec_storeRegs {x : RegIdx} {s t : State} (h : exec (.storeRegs x) s = .next t) (k : RegIdx)
    (hk : k ≤ x) : t.readByte (s.i.toNat + k.val) = s.reg k := by
  obtain ⟨hstored, -⟩ := State.readByte_storeRegs s.i.toNat x s
  obtain rfl := exec_unique (exec_storeRegs x s) h
  exact hstored k hk

/-- Settles O41: FX65 reads the addresses that FX55 wrote, and each of them moves I by the same `indexAfter`. -/
theorem storeThenLoadRestores : Obligations.StoreThenLoadRestores := by
  intro x s t u hstore hi hmem
  refine ⟨_, exec_loadRegs x u, fun k hk => ?_, ?_⟩
  · rw [State.setPc_reg, State.setI_reg, State.reg_loadRegs, if_pos hk, hmem, hi]
    exact readByte_of_exec_storeRegs hstore k hk
  · obtain rfl := exec_unique (exec_storeRegs x s) hstore
    exact congrArg (indexAfter · x) hi

/-- Settles O42: both bytes of the word are read at addresses that FX55 wrote, mod 4096 (D1). -/
theorem storedBytesAreFetched : Obligations.StoredBytesAreFetched := by
  intro x j k s t p hstore hk hjk hp
  have hj : j ≤ x := (Fin.le_def.mpr (by omega : j.val ≤ k.val)).trans hk
  have hhigh : t.readByte p.toNat = s.reg j :=
    (t.readByte_congr hp).trans (readByte_of_exec_storeRegs hstore j hj)
  have hlow : t.readByte (p.toNat + 1) = s.reg k :=
    (t.readByte_congr (by omega)).trans (readByte_of_exec_storeRegs hstore k hk)
  exact congrArg₂ wordOfBytes hhigh hlow

end Sys2Proof.Machine
end

section
/-! PROOFS. Display (spec/44_display.md R95): DXYN by the cells its sprite covers, once and twice. -/

namespace Sys2Proof.Machine

/-- What a sprite of up to 32 rows does to the screen, as the claims speak of it: it flips the cells it covers, and collides
exactly where one was set. -/
theorem State.drawn_spec (s : State) (vx vy : Byte) (n : Nat) (hn : n ≤ 32) :
    (∀ px py, (SpriteCovers s vx vy n px py → Framebuffer.cell (s.drawn vx vy n).fb px py = !s.pixel px py) ∧
      (¬ SpriteCovers s vx vy n px py → Framebuffer.cell (s.drawn vx vy n).fb px py = s.pixel px py)) ∧
    ((s.drawn vx vy n).collided = true ↔ ∃ px py, SpriteCovers s vx vy n px py ∧ s.pixel px py = true) := by
  obtain ⟨hcells, hcollided⟩ :=
    Canvas.drawRows_spec (fun r => s.readByte (s.i.toNat + r)) vx vy n hn ⟨s.fb, false⟩
  simp only [rowsCover_iff, Bool.false_eq_true, false_or] at hcells hcollided
  exact ⟨hcells, hcollided⟩

theorem exec_drw (x y : RegIdx) (n : Nibble) (s : State) :
    exec (.drw x y n) s = .next (((s.present (s.drawn (s.reg x) (s.reg y) n.toNat).fb).setReg flagReg
      (collisionFlag (s.drawn (s.reg x) (s.reg y) n.toNat).collided)).setPc (nextPc s.pc)) := rfl

theorem collisionFlag_eq_one (b : Bool) : collisionFlag b = 1 ↔ b = true := by
  cases b <;> decide

theorem collisionFlag_of_not {b : Bool} (h : ¬ b = true) : collisionFlag b = 0 := by
  rw [Bool.eq_false_of_not_eq_true h]
  rfl

/-- Settles O44: the screen and VF by `State.drawn_spec`, up to 15 rows of a sprite; the flag is a register and no part of
the rest of the frame. -/
theorem drwResult : Obligations.DrwResult := by
  intro x y n s
  have hrows : n.toNat ≤ 32 := by have := n.isLt; omega
  obtain ⟨hcells, hcollided⟩ := s.drawn_spec (s.reg x) (s.reg y) n.toNat hrows
  obtain ⟨-, hrest⟩ := keepsAllButPcDisplay_of_eq (s := s)
    (t := (s.present (s.drawn (s.reg x) (s.reg y) n.toNat).fb).setPc (nextPc s.pc)) rfl
  refine ⟨_, exec_drw x y n s, hcells, fun hcol => ?_, fun hfree => ?_, rfl,
    keepsRegsBut_setReg (s.present _) flagReg _, rfl, hrest⟩
  · rw [State.setPc_reg, State.reg_setReg_self, collisionFlag_eq_one, hcollided]
    exact hcol
  · rw [State.setPc_reg, State.reg_setReg_self]
    exact collisionFlag_of_not (hcollided.not.mpr hfree)

/-- Where a sprite falls depends on the bytes of memory and on I only. -/
theorem spriteCovers_congr {s u : State} (hmem : KeepsMemory s u) (hi : u.i = s.i) (vx vy : Byte) (n : Nat)
    (px : Fin 64) (py : Fin 32) : SpriteCovers u vx vy n px py ↔ SpriteCovers s vx vy n px py := by
  have hread : ∀ a, u.readByte a = s.readByte a := hmem
  simp only [SpriteCovers, hi, hread]

/-- Settles O45: the second draw covers the same cells, so it flips each of them back, and a covered cell that it finds set
is one that was clear before the first. -/
theorem drawTwiceRestores : Obligations.DrawTwiceRestores := by
  intro x y n s t u hdraw hscreen hmem hi hx hy
  have hrows : n.toNat ≤ 32 := by have := n.isLt; omega
  obtain ⟨hfirst, -⟩ := s.drawn_spec (s.reg x) (s.reg y) n.toNat hrows
  obtain ⟨hsecond, hcollided⟩ := u.drawn_spec (s.reg x) (s.reg y) n.toNat hrows
  obtain rfl := exec_unique (exec_drw x y n s) hdraw
  simp only [spriteCovers_congr hmem hi] at hsecond hcollided
  have hcovered : ∀ px py, SpriteCovers s (s.reg x) (s.reg y) n.toNat px py → u.pixel px py = !s.pixel px py :=
    fun px py hcov => (hscreen px py).trans ((hfirst px py).1 hcov)
  have hother : ∀ px py, ¬ SpriteCovers s (s.reg x) (s.reg y) n.toNat px py → u.pixel px py = s.pixel px py :=
    fun px py hcov => (hscreen px py).trans ((hfirst px py).2 hcov)
  refine ⟨_, exec_drw x y n u, fun px py => ?_, ?_⟩
  · rw [hx, hy]
    by_cases hcov : SpriteCovers s (s.reg x) (s.reg y) n.toNat px py
    · exact ((hsecond px py).1 hcov).trans (by rw [hcovered px py hcov, Bool.not_not])
    · exact ((hsecond px py).2 hcov).trans (hother px py hcov)
  · rw [State.setPc_reg, State.reg_setReg_self, collisionFlag_eq_one, hx, hy, hcollided]
    refine exists_congr fun px => exists_congr fun py => and_congr_right fun hcov => ?_
    rw [hcovered px py hcov, Bool.not_eq_true']

end Sys2Proof.Machine
end

section
/-! PROOFS. The key that FX0A takes (spec/45_keys_timers.md R100), and the host's accessors (spec/60_exceptions.md
R114). -/

namespace Sys2Proof.Machine

/-- Settles O47: no key down writes nothing; else the least key down is the one `leastKeyDown` finds, and the write is one
without a flag. -/
theorem ldVxKeyResult : Obligations.LdVxKeyResult := by
  intro x s
  refine ⟨fun hup => exec_ldVxKey_of_none x (leastKeyDown_none hup), fun k hdown hleast => ?_⟩
  refine ⟨_, exec_ldVxKey_of_some x (leastKeyDown_some hdown hleast), ?_, s.putReg_frame x (keyNumber k)⟩
  rw [State.reg_putReg_self, toNat_keyNumber]

/-- Cell (x, y) is at index y * 64 + x of the view (D23). -/
theorem getElem_framebufferView (s : State) (x : Fin 64) (y : Fin 32) (h : y.val * 64 + x.val < 2048) :
    (framebufferView s)[y.val * 64 + x.val] = s.pixel x y := by
  have hx : Fin.ofNat 64 (y.val * 64 + x.val) = x := Fin.ext (by simp only [Fin.val_ofNat]; omega)
  have hy : Fin.ofNat 32 ((y.val * 64 + x.val) / 64) = y := Fin.ext (by simp only [Fin.val_ofNat]; omega)
  rw [framebufferView, Vector.getElem_ofFn, hx, hy]

/-- Settles O59: the key by `keyDown_setKey`, the view by `getElem_framebufferView`, and the rest by what each operation
is. -/
theorem hostAccessors : Obligations.HostAccessors :=
  fun s => ⟨fun n d => ⟨fun k => keyDown_setKey s n k d, rfl⟩, rfl, rfl, getElem_framebufferView s, rfl, rfl⟩

end Sys2Proof.Machine
end
